-- ==== Sys2Proof/Word.lean ====
section
/-! DEFINITION. The byte and the 32-bit bus word of the BLAKE2 compression engine (00_scope.md R9, 10_state.md section 4).
The variant's own word, of width `w`, is `Sys2Proof.Word` of Config.lean. -/

namespace Sys2Proof

/-- One byte of a byte sequence (R9). -/
abbrev Byte := BitVec 8

/-- The contents of one host-visible register, and the data of one host transaction (R34, R48): 32 bits. -/
abbrev Word32 := BitVec 32

end Sys2Proof
end

