-- ==== Sys2Proof/Syntax.lean ====
section
/-! DEFINITION. The syntax of what a host can make the engine do: the two encoded forms of 30_encoding.md R41 (the host
transaction and the command word), the registers of the window (20_memory.md R36), and `Instr`, one constructor for each row of
opcode_table.json. -/

namespace Sys2Proof

/-- The five fields of a command word (R42). -/
structure CommandFields where
  op  : BitVec 8
  len : BitVec 4
  ctx : BitVec 4
  src : BitVec 4
  rsv : BitVec 12
  deriving DecidableEq, Repr

/-- What a command word decodes to (R44, R45): one of the five commands, or ILLEGAL with the word's fields. -/
inductive Command where
  | nop
  | init (ctx : BitVec 4)
  | update (len ctx : BitVec 4)
  | final (ctx : BitVec 4)
  | clone (ctx src : BitVec 4)
  | illegal (f : CommandFields)
  deriving DecidableEq, Repr

/-- A host bus access (R34, R41): a byte offset in the window, a width in bytes, and the data of a write; a read carries none.
Every access the host can make is such a value, the ones that break the protocol included. -/
structure Access where
  addr  : BitVec 8
  width : Nat
  wdata : Option Word32
  deriving DecidableEq, Repr

/-- The two encoded forms (R41). -/
inductive Form where
  | command (w : Word32)
  | transaction (a : Access)
  deriving DecidableEq, Repr

/-- Why a form has no instruction: `refuse HostProtocol(addr, width)` (R34, R144). -/
inductive DecodeReject where
  | hostProtocol (addr : BitVec 8) (width : Nat)
  deriving DecidableEq, Repr

/-- The register an aligned offset selects (R36). -/
inductive Reg where
  | id
  | status
  | cmd
  | din (k : Fin 2)
  | cfg (k : Fin 6)
  | key (k : Fin 16)
  | salt (k : Fin 4)
  | pers (k : Fin 4)
  | dout (k : Fin 16)
  | reserved
  deriving DecidableEq, Repr

/-- The instructions: one constructor per row of opcode_table.json. The first six are the command words of R44 and R45, the others
the register accesses of 43_host_commands.md R108 to R120. -/
inductive Instr where
  /-- R102 -/
  | nop
  /-- R103 -/
  | init (ctx : BitVec 4)
  /-- R104 -/
  | update (len ctx : BitVec 4)
  /-- R105 -/
  | final (ctx : BitVec 4)
  /-- R106: `ctx` is the destination, `src` the source -/
  | clone (ctx src : BitVec 4)
  /-- R107 -/
  | illegal (f : CommandFields)
  /-- R108 -/
  | rdId
  /-- R108, R119 -/
  | wrId (v : Word32)
  /-- R109 -/
  | rdStatus
  /-- R109, R119 -/
  | wrStatus (v : Word32)
  /-- R101: one command within the write -/
  | wrCmd (w : Word32)
  /-- R110 -/
  | rdCmd
  /-- R111 -/
  | wrDin (k : Fin 2) (v : Word32)
  /-- R112 -/
  | rdDin (k : Fin 2)
  /-- R113 -/
  | wrCfg (k : Fin 5) (v : Word32)
  /-- R114 -/
  | wrCfg5 (v : Word32)
  /-- R115 -/
  | rdCfg (k : Fin 6)
  /-- R116 -/
  | wrKey (k : Fin 16) (v : Word32)
  /-- R117 -/
  | rdKey (k : Fin 16)
  /-- R116 -/
  | wrSalt (k : Fin 4) (v : Word32)
  /-- R117 -/
  | rdSalt (k : Fin 4)
  /-- R116 -/
  | wrPers (k : Fin 4) (v : Word32)
  /-- R117 -/
  | rdPers (k : Fin 4)
  /-- R118 -/
  | rdDout (k : Fin 16)
  /-- R118, R119 -/
  | wrDout (k : Fin 16) (v : Word32)
  /-- R120: a read (`none`) or a write of a reserved offset -/
  | reserved (addr : BitVec 8) (wdata : Option Word32)
  deriving DecidableEq, Repr

/-- A decoded command word as an instruction. -/
def Command.toInstr : Command → Instr
  | .nop => .nop
  | .init c => .init c
  | .update len c => .update len c
  | .final c => .final c
  | .clone d s => .clone d s
  | .illegal f => .illegal f

end Sys2Proof
end

