-- ==== Sys2Proof/Machine/Encoding.lean ====
section
/-! DEFINITION. The encoding tables of 30_encoding.md (the command word's fields, R42; its legality, R45) and of 20_memory.md R36
(the register window), shared by the checks, the decoder and the encoder. -/

namespace Sys2Proof

/-- OP of each command (R44). -/
def opNop : BitVec 8 := 0x00
def opInit : BitVec 8 := 0x01
def opUpdate : BitVec 8 := 0x02
def opFinal : BitVec 8 := 0x03
def opClone : BitVec 8 := 0x04

/-- The fields of a command word: OP `[7:0]`, LEN `[11:8]`, CTX `[15:12]`, SRC `[19:16]`, RSV `[31:20]` (R42). -/
def fieldsOf (w : Word32) : CommandFields where
  op  := w.extractLsb' 0 8
  len := w.extractLsb' 8 4
  ctx := w.extractLsb' 12 4
  src := w.extractLsb' 16 4
  rsv := w.extractLsb' 20 12

/-- The command word with the given fields, RSV in the high bits (R42). -/
def packFields (f : CommandFields) : Word32 := f.rsv ++ f.src ++ f.ctx ++ f.len ++ f.op

/-- The seven conditions of R45. The range checks of R46 need `NCTX` and stand in the commands' meanings. -/
def illegalFields (f : CommandFields) : Bool :=
  f.rsv != 0
  || decide (5 ≤ f.op.toNat)
  || (f.op == opNop && (f.len != 0 || f.ctx != 0 || f.src != 0))
  || ((f.op == opInit || f.op == opFinal) && (f.len != 0 || f.src != 0))
  || (f.op == opUpdate && f.src != 0)
  || (f.op == opUpdate && decide (8 < f.len.toNat))
  || (f.op == opClone && f.len != 0)

/-- The register an offset selects (R36). Only word-aligned offsets reach it (R34). -/
def regAt (addr : BitVec 8) : Reg :=
  let n := addr.toNat
  if n < 0x04 then .id
  else if n < 0x08 then .status
  else if n < 0x0C then .cmd
  else if n < 0x10 then .reserved
  else if h : 0x10 ≤ n ∧ n < 0x18 then .din ⟨(n - 0x10) / 4, by omega⟩
  else if n < 0x20 then .reserved
  else if h : 0x20 ≤ n ∧ n < 0x38 then .cfg ⟨(n - 0x20) / 4, by omega⟩
  else if n < 0x40 then .reserved
  else if h : 0x40 ≤ n ∧ n < 0x80 then .key ⟨(n - 0x40) / 4, by omega⟩
  else if h : 0x80 ≤ n ∧ n < 0x90 then .salt ⟨(n - 0x80) / 4, by omega⟩
  else if h : 0x90 ≤ n ∧ n < 0xA0 then .pers ⟨(n - 0x90) / 4, by omega⟩
  else if n < 0xC0 then .reserved
  else if h : 0xC0 ≤ n ∧ n < 0x100 then .dout ⟨(n - 0xC0) / 4, by omega⟩
  else .reserved

/-- The offset of the first register of a bank, and of register `k` of it (R36). -/
def bankOffset (base k : Nat) : BitVec 8 := BitVec.ofNat 8 (base + 4 * k)

/-- `addr mod 4 = 0` (R34). -/
def aligned (addr : BitVec 8) : Bool := addr.extractLsb' 0 2 == 0

end Sys2Proof
end

