-- ==== Sys2Proof/WellFormed.lean ====
section
/-! DEFINITION. Which instructions have an encoding (30_encoding.md R42 to R47, 20_memory.md R36). The register numbers are bounded
by their types; three checks are left: LEN, the fields of an ILLEGAL word, and the offset of a reserved access. -/

namespace Sys2Proof

/-- A command that some command word decodes to: an UPDATE has `LEN ≤ 8`, an ILLEGAL one meets R45. -/
def Command.wellFormed : Command → Bool
  | .nop => true
  | .init _ => true
  | .update len _ => decide (len.toNat ≤ 8)
  | .final _ => true
  | .clone _ _ => true
  | .illegal f => illegalFields f

/-- An instruction that some encoded form decodes to. -/
def Instr.wellFormed : Instr → Bool
  | .nop => true
  | .init _ => true
  | .update len _ => decide (len.toNat ≤ 8)
  | .final _ => true
  | .clone _ _ => true
  | .illegal f => illegalFields f
  | .rdId => true
  | .wrId _ => true
  | .rdStatus => true
  | .wrStatus _ => true
  | .wrCmd _ => true
  | .rdCmd => true
  | .wrDin _ _ => true
  | .rdDin _ => true
  | .wrCfg _ _ => true
  | .wrCfg5 _ => true
  | .rdCfg _ => true
  | .wrKey _ _ => true
  | .rdKey _ => true
  | .wrSalt _ _ => true
  | .rdSalt _ => true
  | .wrPers _ _ => true
  | .rdPers _ => true
  | .rdDout _ => true
  | .wrDout _ _ => true
  | .reserved addr _ => aligned addr && (regAt addr == .reserved)

end Sys2Proof
end

