-- ==== Sys2Proof/Decode.lean ====
section
/-! DEFINITION. The decoder of both encoded forms of 30_encoding.md R41, total on every form, and after it the encoder. -/

namespace Sys2Proof

/-- The command of a word with fields `f` (R44, R45). A word R45 rejects is ILLEGAL; opcodes from 0x05 on never pass that check. -/
def decodeFields (f : CommandFields) : Command :=
  if illegalFields f then .illegal f
  else if f.op = opNop then .nop
  else if f.op = opInit then .init f.ctx
  else if f.op = opUpdate then .update f.len f.ctx
  else if f.op = opFinal then .final f.ctx
  else .clone f.ctx f.src

/-- The command of a command word (R42 to R45). -/
def decodeCommand (w : Word32) : Command := decodeFields (fieldsOf w)

/-- A read of a register (R108 to R120); `addr` is the offset it was selected by. -/
def readOf (addr : BitVec 8) : Reg → Instr
  | .id => .rdId
  | .status => .rdStatus
  | .cmd => .rdCmd
  | .din k => .rdDin k
  | .cfg k => .rdCfg k
  | .key k => .rdKey k
  | .salt k => .rdSalt k
  | .pers k => .rdPers k
  | .dout k => .rdDout k
  | .reserved => .reserved addr none

/-- A write of `v` to a register (R101, R108 to R120); `addr` is the offset it was selected by. -/
def writeOf (addr : BitVec 8) (v : Word32) : Reg → Instr
  | .id => .wrId v
  | .status => .wrStatus v
  | .cmd => .wrCmd v
  | .din k => .wrDin k v
  | .cfg k => if h : k.val < 5 then .wrCfg ⟨k.val, h⟩ v else .wrCfg5 v
  | .key k => .wrKey k v
  | .salt k => .wrSalt k v
  | .pers k => .wrPers k v
  | .dout k => .wrDout k v
  | .reserved => .reserved addr (some v)

/-- The access at an aligned offset (R36). -/
def decodeRead (addr : BitVec 8) : Instr := readOf addr (regAt addr)
def decodeWrite (addr : BitVec 8) (v : Word32) : Instr := writeOf addr v (regAt addr)

/-- The instruction of a host access: 32-bit and word-aligned, or rejected by name (R34, R41). -/
def decodeAccess (a : Access) : Except DecodeReject Instr :=
  if a.width = 4 ∧ aligned a.addr then
    match a.wdata with
    | none => .ok (decodeRead a.addr)
    | some v => .ok (decodeWrite a.addr v)
  else .error (.hostProtocol a.addr a.width)

/-- The instruction of an encoded form (R41). -/
def decode : Form → Except DecodeReject Instr
  | .command w => .ok (decodeCommand w).toInstr
  | .transaction a => decodeAccess a

/-- The command word of a command (R44). -/
def encodeCommand : Command → Word32
  | .nop => packFields ⟨opNop, 0, 0, 0, 0⟩
  | .init c => packFields ⟨opInit, 0, c, 0, 0⟩
  | .update len c => packFields ⟨opUpdate, len, c, 0, 0⟩
  | .final c => packFields ⟨opFinal, 0, c, 0, 0⟩
  | .clone d s => packFields ⟨opClone, 0, d, s, 0⟩
  | .illegal f => packFields f

/-- A 32-bit read, and a 32-bit write, of an offset. -/
def readForm (addr : BitVec 8) : Form := .transaction ⟨addr, 4, none⟩
def writeForm (addr : BitVec 8) (v : Word32) : Form := .transaction ⟨addr, 4, some v⟩

/-- The encoded form of an instruction: a command word for the six rows of R44 and R45, a transaction for the others (R36). -/
def encode : Instr → Form
  | .nop => .command (encodeCommand .nop)
  | .init c => .command (encodeCommand (.init c))
  | .update len c => .command (encodeCommand (.update len c))
  | .final c => .command (encodeCommand (.final c))
  | .clone d s => .command (encodeCommand (.clone d s))
  | .illegal f => .command (encodeCommand (.illegal f))
  | .rdId => readForm 0x00
  | .wrId v => writeForm 0x00 v
  | .rdStatus => readForm 0x04
  | .wrStatus v => writeForm 0x04 v
  | .wrCmd w => writeForm 0x08 w
  | .rdCmd => readForm 0x08
  | .wrDin k v => writeForm (bankOffset 0x10 k) v
  | .rdDin k => readForm (bankOffset 0x10 k)
  | .wrCfg k v => writeForm (bankOffset 0x20 k) v
  | .wrCfg5 v => writeForm 0x34 v
  | .rdCfg k => readForm (bankOffset 0x20 k)
  | .wrKey k v => writeForm (bankOffset 0x40 k) v
  | .rdKey k => readForm (bankOffset 0x40 k)
  | .wrSalt k v => writeForm (bankOffset 0x80 k) v
  | .rdSalt k => readForm (bankOffset 0x80 k)
  | .wrPers k v => writeForm (bankOffset 0x90 k) v
  | .rdPers k => readForm (bankOffset 0x90 k)
  | .rdDout k => readForm (bankOffset 0xC0 k)
  | .wrDout k v => writeForm (bankOffset 0xC0 k) v
  | .reserved addr none => readForm addr
  | .reserved addr (some v) => writeForm addr v

/-- The form opcode_table.json's numbering gives `nbits` bits `w`. A row of 32 bits is a command word. A row of 8 bits is a
transaction's offset: bits `[7:0]` are the offset, bit 8 the direction (1 = WR) and bits `[47:16]` the data, so that the 8 bits of
the table alone, with zeros above them, are a read. DESIGN CHOICE (notes/assumptions/4.md): the table gives the direction no bit. -/
def tableForm (nbits w : Nat) : Form :=
  if nbits = 32 then .command (BitVec.ofNat 32 w)
  else .transaction ⟨BitVec.ofNat 8 w, 4, if w.testBit 8 then some (BitVec.ofNat 32 (w >>> 16)) else none⟩

/-- The instruction the decoder reads from a word of opcode_table.json. -/
def decodeTableWord (nbits w : Nat) : Option Instr :=
  match decode (tableForm nbits w) with
  | .ok i => some i
  | .error _ => none

end Sys2Proof
end

