-- ==== Sys2Proof/Config.lean ====
section
/-! DEFINITION. What one implementation fixes: the variant (00_scope.md R2), the number of contexts of the reset machine (R6),
and the parameters the spec leaves OPEN, which have no body here (92_eei_decisions.md D10, D27).
The Variant Descriptor's other constants stand in Machine/Descriptor.lean. -/

namespace Sys2Proof

/-- `VARIANT ∈ {B, S}` (R2): B is BLAKE2b, the 64-bit word variant; S is BLAKE2s, the 32-bit word variant. -/
inductive Variant where
  | B
  | S
  deriving DecidableEq, Repr

/-- The word width `w` in bits (R3, R4). -/
@[reducible] def Variant.w : Variant → Nat
  | .B => 64
  | .S => 32

/-- A word of variant `V`: `w` bits (R3, R4). -/
abbrev Word (V : Variant) := BitVec V.w

/-- The variant of `Machine.State.reset`. DESIGN CHOICE (notes/assumptions/1.md): the spec lets an instance be either, and every
definition and statement of this package covers both. -/
def Config.variant : Variant := .B

/-- The number of contexts of `Machine.State.reset`. DESIGN CHOICE (notes/assumptions/1.md): `NCTX` is OPEN between 1 and 16 (R6);
2 is the value of the spec's own programs P1 and P3 and lets both range checks of R46 be met. -/
def Config.nctx : Nat := 2

/-- `ENGINE_BASE`, where the platform puts the register window in the host's address map: OPEN (R35, D10), so it has no body. -/
opaque Config.engineBase : Nat

/-- The host address of a byte offset of the window (R35). The engine itself sees the offset only. -/
def Config.hostAddress (off : BitVec 8) : Nat := Config.engineBase + off.toNat

/-- `LAT(command, compressions)`, the wait states of a CMD write: OPEN (R156, D27), so it has no body.
The command is the whole 32-bit word written to CMD (00_scope.md, section 6). No step reads it: the model is untimed. -/
opaque Config.lat : Word32 → Nat → Nat

/-- `LAT_MAX`, the bound of `LAT`: OPEN (R156, D27). -/
opaque Config.latMax : Nat

/-- The wait states of a write of `w` to CMD that runs `k` compressions: `LAT` kept under its bound `LAT_MAX` (R156). -/
def Config.waitStates (w : Word32) (k : Nat) : Nat := min (Config.lat w k) Config.latMax

end Sys2Proof
end

