-- ==== Sys2Proof/Machine/Descriptor.lean ====
section
/-! DEFINITION. The constant tables of a variant: the Variant Descriptor (00_scope.md R3, R4), the initialization vector (R5),
the message permutation table SIGMA (41_compression.md R73) and the quadruple table Q (R68). Nothing writes them (R12). -/

namespace Sys2Proof

/-- Word width in bytes, `wb` (R3, R4). -/
def Variant.wb : Variant → Nat
  | .B => 8
  | .S => 4

/-- Round count `R` (R3, R4). -/
def Variant.rounds : Variant → Nat
  | .B => 12
  | .S => 10

/-- Block size in bytes, `bb` (R3, R4). -/
def Variant.bb : Variant → Nat
  | .B => 128
  | .S => 64

/-- Maximum digest bytes, `NN_MAX` (R3, R4). -/
def Variant.nnMax : Variant → Nat
  | .B => 64
  | .S => 32

/-- Maximum key bytes, `KK_MAX` (R3, R4). -/
def Variant.kkMax : Variant → Nat
  | .B => 64
  | .S => 32

/-- Salt field width and maximum salt bytes, `SALT_MAX` (R3, R4). -/
def Variant.saltMax : Variant → Nat
  | .B => 16
  | .S => 8

/-- Personalization width and maximum bytes, `PERS_MAX` (R3, R4). -/
def Variant.persMax : Variant → Nat
  | .B => 16
  | .S => 8

/-- Parameter block bytes, `PB` (R3, R4, R57). -/
def Variant.pb : Variant → Nat
  | .B => 64
  | .S => 32

/-- Node offset width in bits, `NO_BITS` (R3, R4). -/
def Variant.noBits : Variant → Nat
  | .B => 64
  | .S => 48

/-- Rotation amount `R1` (R3, R4, R74). -/
def Variant.rot1 : Variant → Nat
  | .B => 32
  | .S => 16

/-- Rotation amount `R2`. -/
def Variant.rot2 : Variant → Nat
  | .B => 24
  | .S => 12

/-- Rotation amount `R3`. -/
def Variant.rot3 : Variant → Nat
  | .B => 16
  | .S => 8

/-- Rotation amount `R4`. -/
def Variant.rot4 : Variant → Nat
  | .B => 63
  | .S => 7

/-- The initialization vector `IV[0..7]` (R5). -/
def iv : (V : Variant) → Vector (Word V) 8
  | .B => #v[0x6a09e667f3bcc908#64, 0xbb67ae8584caa73b#64, 0x3c6ef372fe94f82b#64, 0xa54ff53a5f1d36f1#64,
             0x510e527fade682d1#64, 0x9b05688c2b3e6c1f#64, 0x1f83d9abfb41bd6b#64, 0x5be0cd19137e2179#64]
  | .S => #v[0x6a09e667#32, 0xbb67ae85#32, 0x3c6ef372#32, 0xa54ff53a#32,
             0x510e527f#32, 0x9b05688c#32, 0x1f83d9ab#32, 0x5be0cd19#32]

/-- The ten rows of the message permutation table (R73). -/
def sigma : Vector (Vector (Fin 16) 16) 10 := #v[
  #v[0, 1, 2, 3, 4, 5, 6, 7, 8, 9, 10, 11, 12, 13, 14, 15],
  #v[14, 10, 4, 8, 9, 15, 13, 6, 1, 12, 0, 2, 11, 7, 5, 3],
  #v[11, 8, 12, 0, 5, 2, 15, 13, 10, 14, 3, 6, 7, 1, 9, 4],
  #v[7, 9, 3, 1, 13, 12, 11, 14, 2, 6, 5, 10, 4, 0, 15, 8],
  #v[9, 0, 5, 7, 2, 4, 10, 15, 14, 1, 11, 12, 6, 8, 3, 13],
  #v[2, 12, 6, 10, 0, 11, 8, 3, 4, 13, 7, 5, 15, 14, 1, 9],
  #v[12, 5, 1, 15, 14, 13, 4, 10, 0, 7, 6, 3, 9, 2, 8, 11],
  #v[13, 11, 7, 14, 12, 1, 3, 9, 5, 0, 15, 4, 8, 6, 2, 10],
  #v[6, 15, 14, 9, 11, 3, 0, 8, 12, 2, 13, 7, 1, 4, 10, 5],
  #v[10, 2, 8, 4, 7, 6, 1, 5, 15, 11, 9, 14, 3, 12, 13, 0]]

/-- The permutation row of round `r`, `SIGMA[r mod 10]` (R67). -/
def sigmaRow (r : Nat) : Vector (Fin 16) 16 := sigma[r % 10]'(Nat.mod_lt _ (by decide))

/-- One index quadruple `(a, b, c, d)` of R68. -/
structure Quad where
  a : Fin 16
  b : Fin 16
  c : Fin 16
  d : Fin 16
  deriving DecidableEq, Repr

/-- The eight quadruples `Q[0..7]`: four columns, then four diagonals (R68). -/
def quads : Vector Quad 8 := #v[
  ⟨0, 4, 8, 12⟩, ⟨1, 5, 9, 13⟩, ⟨2, 6, 10, 14⟩, ⟨3, 7, 11, 15⟩,
  ⟨0, 5, 10, 15⟩, ⟨1, 6, 11, 12⟩, ⟨2, 7, 8, 13⟩, ⟨3, 4, 9, 14⟩]

end Sys2Proof
end

