-- ==== Sys2Proof/Machine/State.lean ====
section
/-! DEFINITION. The state of one engine instance (10_state.md R11 to R32), the host's side of the bus, the reasons a step can stop,
and the state after reset (70_reset_and_hazards.md R147).

An engine's type is indexed by its variant, because one instance implements exactly one variant and never changes it (R2): a B engine
has 64-bit words, an S engine 32-bit words, and no state mixes them. `NCTX` is the number of context records (R6). -/

namespace Sys2Proof.Machine

/-- A step never faults: the engine has no trap, no exception and no bus error (60_exceptions.md R126, R135, R137). The type has no
constructor, so a fault is impossible, not only unreached. Safe: the spec gives none. -/
inductive Fault where
  deriving DecidableEq, Repr

/-- Why a step has no meaning. -/
inductive Refusal where
  /-- An instruction without a meaning in this model. Raised by no arm of `exec`. Safe. -/
  | notModelled (mnemonic : String)
  /-- `refuse HostProtocol(addr, width)`: an access that is not 32-bit or not word-aligned. Raised by `step` when such an access is
  next on the bus (R34, R144). Safe: the spec tells a model to refuse it. -/
  | hostProtocol (addr : BitVec 8) (width : Nat)
  deriving DecidableEq, Repr

/-- The lifecycle of a context, `st` (R18). -/
inductive Lifecycle where
  | empty
  | ready
  | final
  deriving DecidableEq, Repr

/-- The error codes of STATUS.ERR (60_exceptions.md R127). Codes 5 to 15 are never written, so they have no constructor. -/
inductive ErrCode where
  | ok
  | config
  | state
  | illegal
  | noctx
  deriving DecidableEq, Repr

/-- The phase of the round scheduler (R16). -/
inductive Phase where
  | load
  | mix
  | fold
  deriving DecidableEq, Repr

/-- A context record (R17): `st`, `h[0..7]`, the byte counter `t` of `2w` bits (R19), the finalization flags `f[0]` and `f[1]` (R20),
the lookahead buffer (R21), `nn` and `ln` latched by INIT (R22), and the cached digest. -/
structure Ctx (V : Variant) where
  st  : Lifecycle
  h   : Vector (Word V) 8
  t   : BitVec (2 * V.w)
  f0  : Word V
  f1  : Word V
  buf : List Byte
  nn  : BitVec 8
  ln  : BitVec 1
  dig : List Byte
  deriving DecidableEq, Repr

/-- The compression datapath (R14, R16): the working vector, the message words, and the scheduler's phase, round and step. -/
structure Datapath (V : Variant) where
  v     : Vector (Word V) 16
  m     : Vector (Word V) 16
  phase : Phase
  r     : Nat
  j     : Fin 8
  deriving DecidableEq, Repr

/-- The fields of STATUS (R26): ERR, CSTATE and DLEN. -/
structure Status where
  err    : ErrCode
  cstate : Lifecycle
  dlen   : BitVec 8
  deriving DecidableEq, Repr

/-- The staging registers (R25): DIN0 and DIN1 (R28), CFG0 to CFG4, the one stored bit of CFG5 (R29), and the KEY, SALT and PERS banks
(R30). -/
structure Staging where
  din  : Vector Word32 2
  cfg  : Vector Word32 5
  cfg5 : BitVec 1
  key  : Vector Word32 16
  salt : Vector Word32 4
  pers : Vector Word32 4
  deriving DecidableEq, Repr

/-- One engine instance of variant `V` (R11). The contexts are numbered `0 .. NCTX − 1` by their place in `ctx`. ID and CMD have no
storage (R24, R27), and the constant tables are no state (R12). -/
structure Engine (V : Variant) where
  ctx    : List (Ctx V)
  dp     : Datapath V
  status : Status
  stage  : Staging
  dout   : Vector Word32 16
  deriving DecidableEq, Repr

/-- What the bus brings to the engine, one event at a time (20_memory.md R38): a host access, a reset between two accesses
(70_reset_and_hazards.md R146), or a reset that comes while the CMD write of `w` is stalled (R149). -/
inductive HostEvent where
  | access (a : Access)
  | reset
  | resetInCmd (w : Word32)
  deriving DecidableEq, Repr

/-- The host's side: the events the bus has yet to deliver, oldest first, and the values its reads have returned, oldest first
(R157). It is the environment's, not the engine's: reset leaves it. -/
structure Bus where
  pending : List HostEvent
  reads   : List Word32
  deriving DecidableEq, Repr

/-- The machine: one engine of one variant, and the bus. -/
structure State where
  variant : Variant
  eng     : Engine variant
  bus     : Bus
  deriving DecidableEq, Repr

/-- The EMPTY record: the context at reset and after a failed INIT (R32, 42_streaming.md R86). -/
def Ctx.emptyRecord (V : Variant) : Ctx V where
  st  := .empty
  h   := Vector.replicate 8 0
  t   := 0
  f0  := 0
  f1  := 0
  buf := []
  nn  := 0
  ln  := 0
  dig := []

/-- The datapath at reset. DESIGN CHOICE (notes/assumptions/2.md): the spec gives its registers no reset value, and none is read
before it is written (R14, R16, R147). -/
def Datapath.reset (V : Variant) : Datapath V where
  v     := Vector.replicate 16 0
  m     := Vector.replicate 16 0
  phase := .load
  r     := 0
  j     := 0

/-- STATUS at reset: 0x00000000 (R147). -/
def Status.reset : Status where
  err    := .ok
  cstate := .empty
  dlen   := 0

/-- CFG0 at reset: fanout 1, depth 1, no key, `nn = NN_MAX` (R29, R147). -/
def cfg0Reset (V : Variant) : Word32 := BitVec.ofNat 32 (1 <<< 24 + 1 <<< 16 + 0 <<< 8 + V.nnMax)

/-- The staging registers at reset: CFG0 as above, all others 0 (R147). -/
def Staging.reset (V : Variant) : Staging where
  din  := Vector.replicate 2 0
  cfg  := #v[cfg0Reset V, 0, 0, 0, 0]
  cfg5 := 0
  key  := Vector.replicate 16 0
  salt := Vector.replicate 4 0
  pers := Vector.replicate 4 0

/-- The engine of variant `V` with `n` contexts at reset (R32, R147). -/
def Engine.reset (V : Variant) (n : Nat) : Engine V where
  ctx    := List.replicate n (Ctx.emptyRecord V)
  dp     := Datapath.reset V
  status := Status.reset
  stage  := Staging.reset V
  dout   := Vector.replicate 16 0

/-- The machine of variant `V` with `n` contexts right after power-up, with nothing on the bus (R146, R148). -/
def State.resetOf (V : Variant) (n : Nat) : State where
  variant := V
  eng     := Engine.reset V n
  bus     := ⟨[], []⟩

/-- The machine right after reset, of the variant and with the number of contexts that Config names (notes/assumptions/1.md). -/
def State.reset : State := State.resetOf Config.variant Config.nctx

end Sys2Proof.Machine
end

