-- ==== Sys2Proof/Machine/Flags.lean ====
section
/-! DEFINITION. Every flag the spec computes: the finalization flag words (42_streaming.md R93, R96) and the fields of STATUS
(10_state.md R26). -/

namespace Sys2Proof.Machine

/-- `ones_w` (00_scope.md R8). -/
def ones (V : Variant) : Word V := BitVec.allOnes V.w

/-- The last-block flag word at finalize (R93). -/
def lastBlockFlag (V : Variant) : Word V := ones V

/-- The last-node flag word at finalize: `ones_w` exactly when `ln = 1` (R96). -/
def lastNodeFlag (V : Variant) (ln : BitVec 1) : Word V := if ln = 1 then ones V else 0

/-- `enc(st)`: EMPTY = 0, READY = 1, FINAL = 2 (R17). -/
def Lifecycle.enc : Lifecycle → BitVec 2
  | .empty => 0
  | .ready => 1
  | .final => 2

/-- The codes of STATUS.ERR (60_exceptions.md R127). -/
def ErrCode.enc : ErrCode → BitVec 4
  | .ok => 0
  | .config => 1
  | .state => 2
  | .illegal => 3
  | .noctx => 4

/-- What a read of STATUS returns: `DLEN << 8 | CSTATE << 4 | ERR` (43_host_commands.md R109). -/
def Status.word (st : Status) : Word32 :=
  (st.dlen.setWidth 32 <<< 8) ||| (st.cstate.enc.setWidth 32 <<< 4) ||| st.err.enc.setWidth 32

/-- `setStatus(e, s)`: writes ERR and CSTATE, leaves DLEN (43_host_commands.md, notation). -/
def Status.put (st : Status) (e : ErrCode) (s : Lifecycle) : Status := { st with err := e, cstate := s }

/-- The status a NOP or an ILLEGAL word leaves: ERR alone is written (R102, R107). -/
def Status.putErr (st : Status) (e : ErrCode) : Status := { st with err := e }

end Sys2Proof.Machine
end

