-- ==== Sys2Proof/Machine/Bytes.lean ====
section
/-! DEFINITION. Byte sequences and their little-endian readings (00_scope.md R9, 20_memory.md R33). There is no other byte order. -/

namespace Sys2Proof

/-- `LE(B) = Σ B[k]·256^k` (R9). -/
def leNat : List Byte → Nat
  | [] => 0
  | b :: bs => b.toNat + 256 * leNat bs

/-- `toLE_n(x)`: the `n` bytes whose byte `k` is `(x >> 8k) mod 256` (R9). -/
def toLE : Nat → Nat → List Byte
  | 0, _ => []
  | n + 1, x => BitVec.ofNat 8 x :: toLE n (x / 256)

/-- `zeros(n)` (R9). -/
def zeros (n : Nat) : List Byte := List.replicate n 0

/-- The slice `B[i..j)` (R9). -/
def slice (bs : List Byte) (i j : Nat) : List Byte := (bs.drop i).take (j - i)

/-- The four bytes of a register, byte `i` being bits `[8i+7:8i]` (R33). -/
def regBytes (x : Word32) : List Byte := toLE 4 x.toNat

/-- The bytes of a bank of registers, register `k` holding bytes `4k .. 4k+3` (10_state.md R30). -/
def bankBytes {n : Nat} (bank : Vector Word32 n) : List Byte := bank.toList.flatMap regBytes

/-- The register whose bytes are `B[4k..4k+4)` (10_state.md R31). -/
def regOfBytes (bs : List Byte) (k : Nat) : Word32 := BitVec.ofNat 32 (leNat (slice bs (4 * k) (4 * k + 4)))

end Sys2Proof
end

