-- ==== Sys2Proof/Machine/Operands.lean ====
section
/-! DEFINITION. Every operand a command takes: the data bytes of UPDATE (30_encoding.md R43) and the configuration of INIT
(40_parameter_block.md R51, R52), read from the staging registers at the moment of the CMD write (20_memory.md R40). -/

namespace Sys2Proof.Machine

/-- `DB = toLE_4(DIN0) ++ toLE_4(DIN1)` (R43). -/
def dinBytes (s : Staging) : List Byte := bankBytes s.din

/-- The data operand of UPDATE, `DB[0 .. LEN)` (R43). -/
def updateData (s : Staging) (len : BitVec 4) : List Byte := (dinBytes s).take len.toNat

/-- The configuration tuple `C` (R51). -/
structure HashConfig where
  nn         : BitVec 8
  kk         : BitVec 8
  fanout     : BitVec 8
  depth      : BitVec 8
  leafSize   : Word32
  nodeOffset : BitVec 64
  nodeDepth  : BitVec 8
  innerSize  : BitVec 8
  saltLen    : BitVec 8
  persLen    : BitVec 8
  lastNode   : BitVec 1
  kb         : List Byte
  sb         : List Byte
  pbk        : List Byte
  deriving DecidableEq, Repr

/-- The snapshot of the staging registers an INIT takes (R51). -/
def snapshot (s : Staging) : HashConfig where
  nn         := s.cfg[0].extractLsb' 0 8
  kk         := s.cfg[0].extractLsb' 8 8
  fanout     := s.cfg[0].extractLsb' 16 8
  depth      := s.cfg[0].extractLsb' 24 8
  leafSize   := s.cfg[1]
  nodeOffset := s.cfg[3] ++ s.cfg[2]
  nodeDepth  := s.cfg[4].extractLsb' 0 8
  innerSize  := s.cfg[4].extractLsb' 8 8
  saltLen    := s.cfg[4].extractLsb' 16 8
  persLen    := s.cfg[4].extractLsb' 24 8
  lastNode   := s.cfg5
  kb         := bankBytes s.key
  sb         := bankBytes s.salt
  pbk        := bankBytes s.pers

/-- `KEY`, the key of `kk` bytes (R52). -/
def HashConfig.keyBytes (C : HashConfig) : List Byte := C.kb.take C.kk.toNat

/-- `SALT`, zero-padded to `SALT_MAX` bytes (R52). -/
def HashConfig.saltField (V : Variant) (C : HashConfig) : List Byte :=
  C.sb.take C.saltLen.toNat ++ zeros (V.saltMax - C.saltLen.toNat)

/-- `PERS`, zero-padded to `PERS_MAX` bytes (R52). -/
def HashConfig.persField (V : Variant) (C : HashConfig) : List Byte :=
  C.pbk.take C.persLen.toNat ++ zeros (V.persMax - C.persLen.toNat)

/-- `valid(C)`: V1_digest, V2_key, V3_salt, V4_person and V5_offset (R53, R54). -/
def HashConfig.valid (V : Variant) (C : HashConfig) : Bool :=
  decide (1 ≤ C.nn.toNat ∧ C.nn.toNat ≤ V.nnMax)
  && decide (C.kk.toNat ≤ V.kkMax)
  && decide (C.saltLen.toNat ≤ V.saltMax)
  && decide (C.persLen.toNat ≤ V.persMax)
  && decide (C.nodeOffset.toNat < 2 ^ V.noBits)

end Sys2Proof.Machine
end

