-- ==== Sys2Proof/Machine/Mixer.lean ====
section
/-! DEFINITION. The ARX mixing primitive G (41_compression.md R74 to R77). -/

namespace Sys2Proof.Machine

/-- `rotr_w(x, n) = ((x >> n) | (x << (w − n))) mod 2^w` (00_scope.md R8). -/
def rotr {V : Variant} (x : Word V) (n : Nat) : Word V := (x >>> n) ||| (x <<< (V.w - n))

/-- G on the working vector: the eight sub-steps of R77 in order, each reading what the ones before it left. -/
def mixG {V : Variant} (v : Vector (Word V) 16) (q : Quad) (mx my : Word V) : Vector (Word V) 16 :=
  let v := v.set q.a (v[q.a] + v[q.b] + mx)
  let v := v.set q.d (rotr (v[q.d] ^^^ v[q.a]) V.rot1)
  let v := v.set q.c (v[q.c] + v[q.d])
  let v := v.set q.b (rotr (v[q.b] ^^^ v[q.c]) V.rot2)
  let v := v.set q.a (v[q.a] + v[q.b] + my)
  let v := v.set q.d (rotr (v[q.d] ^^^ v[q.a]) V.rot3)
  let v := v.set q.c (v[q.c] + v[q.d])
  let v := v.set q.b (rotr (v[q.b] ^^^ v[q.c]) V.rot4)
  v

/-- The message words quadruple `j` takes in round `r`: row entries `2j` and `2j + 1` (R69). -/
def roundWordX {V : Variant} (m : Vector (Word V) 16) (r : Nat) (j : Fin 8) : Word V :=
  m[(sigmaRow r)[2 * j.val]'(by omega)]
def roundWordY {V : Variant} (m : Vector (Word V) 16) (r : Nat) (j : Fin 8) : Word V :=
  m[(sigmaRow r)[2 * j.val + 1]'(by omega)]

/-- Step `j` of round `r`: one G (R69). -/
def mixAt {V : Variant} (m : Vector (Word V) 16) (r : Nat) (j : Fin 8) (v : Vector (Word V) 16) : Vector (Word V) 16 :=
  mixG v quads[j] (roundWordX m r j) (roundWordY m r j)

end Sys2Proof.Machine
end

