-- ==== Sys2Proof/Machine/Scheduler.lean ====
section
/-! DEFINITION. The compression function (41_compression.md R63 to R73, R78), twice: as the step machine of R70 over the datapath that
State holds, which the commands run, and as the nested rounds of R66 and R69 (`compress`), to which a statement compares it. -/

namespace Sys2Proof.Machine

/-- A word of `wb` bytes read little-endian (20_memory.md R33). -/
def wordAt (V : Variant) (bs : List Byte) (k : Nat) : Word V :=
  BitVec.ofNat V.w (leNat (slice bs (k * V.wb) ((k + 1) * V.wb)))

/-- `m[k] = LE(block[k·wb .. (k+1)·wb))` (R64). -/
def parseBlock (V : Variant) (block : List Byte) : Vector (Word V) 16 := Vector.ofFn fun k => wordAt V block k.val

/-- The two words of the counter (10_state.md R19). -/
def counterLow {V : Variant} (t : BitVec (2 * V.w)) : Word V := t.extractLsb' 0 V.w
def counterHigh {V : Variant} (t : BitVec (2 * V.w)) : Word V := t.extractLsb' V.w V.w

/-- The working vector before round 0 (R65). -/
def initV {V : Variant} (h : Vector (Word V) 8) (t : BitVec (2 * V.w)) (f0 f1 : Word V) : Vector (Word V) 16 :=
  #v[h[0], h[1], h[2], h[3], h[4], h[5], h[6], h[7],
     (iv V)[0], (iv V)[1], (iv V)[2], (iv V)[3],
     counterLow t ^^^ (iv V)[4], counterHigh t ^^^ (iv V)[5], f0 ^^^ (iv V)[6], f1 ^^^ (iv V)[7]]

/-- `h'[i] = h[i] ^ v[i] ^ v[i+8]` (R78). -/
def foldOut {V : Variant} (h : Vector (Word V) 8) (v : Vector (Word V) 16) : Vector (Word V) 8 :=
  Vector.ofFn fun i => h[i] ^^^ v[i.val]'(by omega) ^^^ v[i.val + 8]'(by omega)

/-- LOAD (R70): the datapath before the first MIX step. It reads nothing of the datapath that was there. -/
def Datapath.load {V : Variant} (h : Vector (Word V) 8) (block : List Byte) (t : BitVec (2 * V.w)) (f0 f1 : Word V) :
    Datapath V where
  v     := initV h t f0 f1
  m     := parseBlock V block
  phase := .mix
  r     := 0
  j     := 0

/-- One MIX step (R70): one G, then the next step, the next round, or FOLD. In another phase nothing is mixed. -/
def Datapath.mixStep {V : Variant} (dp : Datapath V) : Datapath V :=
  match dp with
  | ⟨v, m, .mix, r, j⟩ =>
    let v' := mixAt m r j v
    if h : j.val < 7 then ⟨v', m, .mix, r, ⟨j.val + 1, by omega⟩⟩
    else if r < V.rounds - 1 then ⟨v', m, .mix, r + 1, 0⟩
    else ⟨v', m, .fold, r, j⟩
  | ⟨v, m, .load, r, j⟩ => ⟨v, m, .load, r, j⟩
  | ⟨v, m, .fold, r, j⟩ => ⟨v, m, .fold, r, j⟩

/-- `n` MIX steps. -/
def Datapath.mixSteps {V : Variant} : Nat → Datapath V → Datapath V
  | 0, dp => dp
  | n + 1, dp => Datapath.mixSteps n dp.mixStep

/-- One whole compression on the datapath: LOAD, then `8·R` MIX steps; FOLD reads what they leave (R70). -/
def Datapath.compress {V : Variant} (h : Vector (Word V) 8) (block : List Byte) (t : BitVec (2 * V.w)) (f0 f1 : Word V) :
    Datapath V :=
  Datapath.mixSteps (8 * V.rounds) (Datapath.load h block t f0 f1)

/-- The first `n` steps of round `r`, in increasing `j` (R69). -/
def roundUpTo {V : Variant} (m : Vector (Word V) 16) (r : Nat) (v : Vector (Word V) 16) : Nat → Vector (Word V) 16
  | 0 => v
  | n + 1 => if h : n < 8 then mixAt m r ⟨n, h⟩ (roundUpTo m r v n) else roundUpTo m r v n

/-- Round `r` (R69). -/
def mixRound {V : Variant} (m : Vector (Word V) 16) (r : Nat) (v : Vector (Word V) 16) : Vector (Word V) 16 := roundUpTo m r v 8

/-- Rounds `0 .. n − 1`, in increasing order (R66). -/
def mixRounds {V : Variant} (m : Vector (Word V) 16) (v : Vector (Word V) 16) : Nat → Vector (Word V) 16
  | 0 => v
  | n + 1 => mixRound m n (mixRounds m v n)

/-- `compress(h, block, t, f)` as a pure function, by R64, R65, R66 and R78 in that order (R63, R76). -/
def compress {V : Variant} (h : Vector (Word V) 8) (block : List Byte) (t : BitVec (2 * V.w)) (f0 f1 : Word V) :
    Vector (Word V) 8 :=
  foldOut h (mixRounds (parseBlock V block) (initV h t f0 f1) V.rounds)

end Sys2Proof.Machine
end

