-- ==== Sys2Proof/Machine/ParamBlock.lean ====
section
/-! DEFINITION. The parameter-block serializer and the initial chaining value (40_parameter_block.md R55 to R61). -/

namespace Sys2Proof.Machine

/-- The fields at offsets 0 to 7, the same in both variants (R55, R56). -/
def paramHead (C : HashConfig) : List Byte := [C.nn, C.kk, C.fanout, C.depth] ++ toLE 4 C.leafSize.toNat

/-- The byte-layout writer: the parameter block `P` of R55 (B: 8-byte node offset, 14 reserved bytes) and of R56 (S: 6-byte node
offset, none reserved). The last-node flag and the key bytes are not in it (R61). -/
def paramBlock : Variant → HashConfig → List Byte
  | .B, C => paramHead C ++ toLE 8 C.nodeOffset.toNat ++ [C.nodeDepth, C.innerSize] ++ zeros 14
      ++ C.saltField .B ++ C.persField .B
  | .S, C => paramHead C ++ toLE 6 C.nodeOffset.toNat ++ [C.nodeDepth, C.innerSize]
      ++ C.saltField .S ++ C.persField .S

/-- The word reader: `PW[i] = LE(P[i·wb .. (i+1)·wb))` (R58). -/
def paramWords (V : Variant) (p : List Byte) : Vector (Word V) 8 := Vector.ofFn fun i => wordAt V p i.val

/-- The initial chaining value, `h[i] = IV[i] ^ PW[i]` (R59). -/
def initialH (V : Variant) (C : HashConfig) : Vector (Word V) 8 :=
  Vector.ofFn fun i => (iv V)[i] ^^^ (paramWords V (paramBlock V C))[i]

/-- The key block, `KEY ++ zeros(bb − kk)`, or no bytes when there is no key (42_streaming.md R83). -/
def keyBlock (V : Variant) (C : HashConfig) : List Byte :=
  if C.kk.toNat = 0 then [] else C.keyBytes ++ zeros (V.bb - C.kk.toNat)

end Sys2Proof.Machine
end

