-- ==== Sys2Proof/Machine/Hasher.lean ====
section
/-! DEFINITION. The streaming hasher: the context-level operations construct, absorb, finalize and clone (42_streaming.md).
`Work` is a context together with the one compression datapath of the engine, which a compression uses. -/

namespace Sys2Proof.Machine

/-- A context and the datapath that compresses for it. -/
structure Work (V : Variant) where
  c  : Ctx V
  dp : Datapath V
  deriving DecidableEq, Repr

/-- `advance(n)`: `t <- (t + n) mod 2^(2w)` (R88). -/
def advance {V : Variant} (n : Nat) (c : Ctx V) : Ctx V := { c with t := c.t + BitVec.ofNat (2 * V.w) n }

/-- One compression of `block` with the context's counter and the given flags; `h` takes the fold (41_compression.md R63, R70). -/
def compressInto {V : Variant} (c : Ctx V) (block : List Byte) (f0 f1 : Word V) : Work V :=
  let dp := Datapath.compress c.h block c.t f0 f1
  ⟨{ c with h := foldOut c.h dp.v }, dp⟩

/-- One turn of the loop of R89: advance by a block, compress the oldest block with flags `(0, 0)`, drop it. -/
def compressOldest {V : Variant} (x : Work V) : Work V :=
  let y := compressInto (advance V.bb x.c) (x.c.buf.take V.bb) 0 0
  ⟨{ y.c with buf := x.c.buf.drop V.bb }, y.dp⟩

/-- The loop of R89: while the buffer holds strictly more than one block. Each turn drops a block, so `n` turns, `n` the buffer's
length, are enough. -/
def drain {V : Variant} : Nat → Work V → Work V
  | 0, x => x
  | n + 1, x => if V.bb < x.c.buf.length then drain n (compressOldest x) else x

/-- `absorb(c, d)` (R89). -/
def absorb {V : Variant} (x : Work V) (d : List Byte) : Work V :=
  drain (x.c.buf ++ d).length ⟨{ x.c with buf := x.c.buf ++ d }, x.dp⟩

/-- `serialize(h)` (R82). -/
def serialize {V : Variant} (h : Vector (Word V) 8) : List Byte := h.toList.flatMap fun x => toLE V.wb x.toNat

/-- `finalize(c)` of a context not yet FINAL (R93). The zero padding is not counted. -/
def finalizeReady {V : Variant} (c : Ctx V) : Work V :=
  let c1 := advance c.buf.length c
  let c2 := { c1 with f0 := lastBlockFlag V, f1 := lastNodeFlag V c.ln }
  let y := compressInto c2 (c.buf ++ zeros (V.bb - c.buf.length)) c2.f0 c2.f1
  ⟨{ y.c with buf := [], dig := (serialize y.c.h).take c.nn.toNat, st := .final }, y.dp⟩

/-- `finalize(c)`: R93, or on a FINAL context the cached digest with nothing changed (R95). -/
def finalize {V : Variant} (x : Work V) : Work V :=
  match x.c.st with
  | .final => x
  | .ready => finalizeReady x.c
  | .empty => finalizeReady x.c

/-- The context a valid configuration constructs, before the key block is absorbed (R85). -/
def freshCtx (V : Variant) (C : HashConfig) : Ctx V where
  st  := .ready
  h   := initialH V C
  t   := 0
  f0  := 0
  f1  := 0
  buf := []
  nn  := C.nn
  ln  := C.lastNode
  dig := []

/-- `construct(c, C)` for a valid `C`: the fresh context, then the key block through `absorb` (R84, R85). -/
def construct {V : Variant} (C : HashConfig) (dp : Datapath V) : Work V :=
  if C.kk.toNat = 0 then ⟨freshCtx V C, dp⟩ else absorb ⟨freshCtx V C, dp⟩ (keyBlock V C)

end Sys2Proof.Machine
end

