-- ==== Sys2Proof/Machine/Ops.lean ====
section
/-! DEFINITION. The named operations on an engine and on the machine that the instructions share: the context file, the digest
registers, STATUS, the one way a command ends with an error, what each register reads as, the read data, and reset.

The engine has no memory (10_state.md R11, 20_memory.md R35): its one address space is the register window, read by `Engine.peek`. -/

namespace Sys2Proof.Machine

/-- `NCTX` (00_scope.md R6). -/
def Engine.nctx {V : Variant} (e : Engine V) : Nat := e.ctx.length

/-- Writes context `c` and the datapath. -/
def Engine.putWork {V : Variant} (e : Engine V) (c : BitVec 4) (x : Work V) : Engine V :=
  { e with ctx := e.ctx.set c.toNat x.c, dp := x.dp }

/-- Writes context `c`. -/
def Engine.putCtx {V : Variant} (e : Engine V) (c : BitVec 4) (r : Ctx V) : Engine V :=
  { e with ctx := e.ctx.set c.toNat r }

/-- `setStatus(e, s)` (43_host_commands.md, notation). -/
def Engine.setStatus {V : Variant} (e : Engine V) (err : ErrCode) (cs : Lifecycle) : Engine V :=
  { e with status := e.status.put err cs }

/-- `raise <Error>`: the one way a command ends with an error (00_scope.md R10, 60_exceptions.md R126). There is no trap: nothing is
saved, no mode changes and control goes nowhere (R137); the code and the named context's state go to STATUS, nothing else changes. -/
def Engine.raise {V : Variant} (e : Engine V) (err : ErrCode) (cs : Lifecycle) : Engine V := e.setStatus err cs

/-- The error of an ILLEGAL word: ERR alone is written, CSTATE keeps its value (R107, R130). -/
def Engine.raiseIllegal {V : Variant} (e : Engine V) : Engine V := { e with status := e.status.putErr .illegal }

/-- Runs `f` on the context a command names, or ends the command as ILLEGAL when there is no such context: `CTX ≥ NCTX`
(30_encoding.md R46), reported before any other error (60_exceptions.md R133). -/
def Engine.withCtx {V : Variant} (e : Engine V) (c : BitVec 4) (f : Ctx V → Engine V) : Engine V :=
  match e.ctx[c.toNat]? with
  | none => e.raiseIllegal
  | some r => f r

/-- The sixteen DOUT words of a digest: `Z = D ++ zeros(64 − len(D))`, `DOUT[k] = LE(Z[4k .. 4k+4))` (43_host_commands.md R105). -/
def doutWords (d : List Byte) : Vector Word32 16 := Vector.ofFn fun k => regOfBytes (d ++ zeros (64 - d.length)) k.val

/-- Puts a digest in DOUT and its length in STATUS.DLEN (R105). -/
def Engine.putDigest {V : Variant} (e : Engine V) (d : List Byte) : Engine V :=
  { e with dout := doutWords d, status := { e.status with dlen := BitVec.ofNat 8 d.length } }

/-- What a read of ID returns: `0xB2 << 24 | NCTX << 16 | R << 8 | w` (R108). -/
def Engine.idWord {V : Variant} (e : Engine V) : Word32 :=
  (0xB2#32 <<< 24) ||| (BitVec.ofNat 32 e.nctx <<< 16) ||| (BitVec.ofNat 32 V.rounds <<< 8) ||| BitVec.ofNat 32 V.w

/-- What a read of CFGk returns (R115). -/
def Staging.cfgWord (s : Staging) (k : Fin 6) : Word32 :=
  if h : k.val < 5 then s.cfg[k.val] else s.cfg5.setWidth 32

/-- What a read of each register returns (R108 to R112, R115, R117, R118, R120). -/
def Engine.readReg {V : Variant} (e : Engine V) : Reg → Word32
  | .id => e.idWord
  | .status => e.status.word
  | .cmd => 0
  | .din k => e.stage.din[k]
  | .cfg k => e.stage.cfgWord k
  | .key k => e.stage.key[k]
  | .salt k => e.stage.salt[k]
  | .pers k => e.stage.pers[k]
  | .dout k => e.dout[k]
  | .reserved => 0

/-- What a read of an aligned offset returns, without making the access: the window as the host sees it (20_memory.md R36). -/
def Engine.peek {V : Variant} (e : Engine V) (addr : BitVec 8) : Word32 := e.readReg (regAt addr)

/-- The machine after an engine operation. -/
def State.onEngine (s : State) (f : Engine s.variant → Engine s.variant) : State := { s with eng := f s.eng }

/-- The machine after a read that returns `x`. -/
def State.respond (s : State) (x : Word32) : State := { s with bus := { s.bus with reads := s.bus.reads ++ [x] } }

/-- The machine after an event has been taken from the bus. -/
def State.pop (s : State) (rest : List HostEvent) : State := { s with bus := { s.bus with pending := rest } }

/-- Reset (70_reset_and_hazards.md R146): every piece of engine state takes its reset value, for the same variant and `NCTX`. The
host's side of the bus is not the engine's and stays. -/
def State.resetEngine (s : State) : State := { s with eng := Engine.reset s.variant s.eng.nctx }

end Sys2Proof.Machine
end

