-- ==== Sys2Proof/Machine/Commands.lean ====
section
/-! DEFINITION. The meanings of the command words (43_host_commands.md R101 to R107). Each command's effect on the engine is one
function `Engine.…`; the meaning the dispatch calls runs it and always goes on to a next state (60_exceptions.md R126). -/

namespace Sys2Proof.Machine

/-- Every outcome of the commands. -/
abbrev Result := Host.Outcome State Fault Refusal

/-- NOP (R102): ERR is cleared, nothing else changes. -/
def Engine.nop {V : Variant} (e : Engine V) : Engine V := { e with status := e.status.putErr .ok }

/-- INIT (R103): the checks run before the first change; an invalid configuration leaves the context EMPTY (42_streaming.md R86). -/
def Engine.init {V : Variant} (c : BitVec 4) (e : Engine V) : Engine V :=
  e.withCtx c fun _ =>
    let C := snapshot e.stage
    if C.valid V then (e.putWork c (construct C e.dp)).setStatus .ok .ready
    else (e.putCtx c (Ctx.emptyRecord V)).raise .config .empty

/-- UPDATE (R104): NOCTX on an EMPTY context, STATE on a FINAL one, else the bytes are absorbed. -/
def Engine.update {V : Variant} (len c : BitVec 4) (e : Engine V) : Engine V :=
  e.withCtx c fun r =>
    match r.st with
    | .empty => e.raise .noctx .empty
    | .final => e.raise .state .final
    | .ready => (e.putWork c (absorb ⟨r, e.dp⟩ (updateData e.stage len))).setStatus .ok .ready

/-- FINAL (R105): NOCTX on an EMPTY context, else the digest goes to DOUT and its length to DLEN. -/
def Engine.final {V : Variant} (c : BitVec 4) (e : Engine V) : Engine V :=
  e.withCtx c fun r =>
    match r.st with
    | .empty => e.raise .noctx .empty
    | .ready => let x := finalize ⟨r, e.dp⟩
                ((e.putWork c x).putDigest x.c.dig).setStatus .ok .final
    | .final => let x := finalize ⟨r, e.dp⟩
                ((e.putWork c x).putDigest x.c.dig).setStatus .ok .final

/-- CLONE (R106): NOCTX when the source is EMPTY, else every field of the source is copied (42_streaming.md R97). -/
def Engine.clone {V : Variant} (d s : BitVec 4) (e : Engine V) : Engine V :=
  e.withCtx d fun _ => e.withCtx s fun r =>
    match r.st with
    | .empty => e.raise .noctx .empty
    | .ready => (e.putCtx d r).setStatus .ok r.st
    | .final => (e.putCtx d r).setStatus .ok r.st

/-- NOP (R102). -/
def execNop (s : State) : Result := .next (s.onEngine Engine.nop)

/-- INIT (R103). -/
def execInit (ctx : BitVec 4) (s : State) : Result := .next (s.onEngine (Engine.init ctx))

/-- UPDATE (R104). -/
def execUpdate (len ctx : BitVec 4) (s : State) : Result := .next (s.onEngine (Engine.update len ctx))

/-- FINAL (R105). -/
def execFinal (ctx : BitVec 4) (s : State) : Result := .next (s.onEngine (Engine.final ctx))

/-- CLONE (R106). -/
def execClone (ctx src : BitVec 4) (s : State) : Result := .next (s.onEngine (Engine.clone ctx src))

/-- ILLEGAL (R107): no operand is interpreted. -/
def execIllegal (_f : CommandFields) (s : State) : Result := .next (s.onEngine Engine.raiseIllegal)

/-- WR CMD (R101): decodes the word and runs exactly one command within the write. -/
def execWrCmd (w : Word32) (s : State) : Result :=
  match decodeCommand w with
  | .nop => execNop s
  | .init c => execInit c s
  | .update len c => execUpdate len c s
  | .final c => execFinal c s
  | .clone d src => execClone d src s
  | .illegal f => execIllegal f s

end Sys2Proof.Machine
end

