-- ==== Sys2Proof/Machine/Accesses.lean ====
section
/-! DEFINITION. The meanings of the register accesses (43_host_commands.md R108 to R120). No access but the CMD write has a side
effect (20_memory.md R37); a read returns its value to the host. -/

namespace Sys2Proof.Machine

/-- Stores into the staging registers (10_state.md R25). -/
def State.putStage (s : State) (g : Staging → Staging) : State := s.onEngine fun e => { e with stage := g e.stage }

/-- RD ID (R108). -/
def execRdId (s : State) : Result := .next (s.respond (s.eng.readReg .id))

/-- WR ID: ignored (R108, R119). -/
def execWrId (_v : Word32) (s : State) : Result := .next s

/-- RD STATUS: no side effect, ERR is not cleared (R109). -/
def execRdStatus (s : State) : Result := .next (s.respond (s.eng.readReg .status))

/-- WR STATUS: ignored (R109, R119). -/
def execWrStatus (_v : Word32) (s : State) : Result := .next s

/-- RD CMD: returns 0 (R110). -/
def execRdCmd (s : State) : Result := .next (s.respond (s.eng.readReg .cmd))

/-- WR DINk: all 32 bits are stored (R111). -/
def execWrDin (k : Fin 2) (v : Word32) (s : State) : Result := .next (s.putStage fun g => { g with din := g.din.set k v })

/-- RD DINk (R112). -/
def execRdDin (k : Fin 2) (s : State) : Result := .next (s.respond (s.eng.readReg (.din k)))

/-- WR CFGk, `k ∈ 0..4`: all 32 bits are stored, nothing is checked (R113). -/
def execWrCfg (k : Fin 5) (v : Word32) (s : State) : Result := .next (s.putStage fun g => { g with cfg := g.cfg.set k v })

/-- WR CFG5: bit 0 is stored as LAST_NODE, bits `[31:1]` are ignored (R114). -/
def execWrCfg5 (v : Word32) (s : State) : Result := .next (s.putStage fun g => { g with cfg5 := v.extractLsb' 0 1 })

/-- RD CFGk, `k ∈ 0..5` (R115). -/
def execRdCfg (k : Fin 6) (s : State) : Result := .next (s.respond (s.eng.readReg (.cfg k)))

/-- WR KEYk (R116). -/
def execWrKey (k : Fin 16) (v : Word32) (s : State) : Result := .next (s.putStage fun g => { g with key := g.key.set k v })

/-- RD KEYk: the key bank can be read back (R117). -/
def execRdKey (k : Fin 16) (s : State) : Result := .next (s.respond (s.eng.readReg (.key k)))

/-- WR SALTk (R116). -/
def execWrSalt (k : Fin 4) (v : Word32) (s : State) : Result := .next (s.putStage fun g => { g with salt := g.salt.set k v })

/-- RD SALTk (R117). -/
def execRdSalt (k : Fin 4) (s : State) : Result := .next (s.respond (s.eng.readReg (.salt k)))

/-- WR PERSk (R116). -/
def execWrPers (k : Fin 4) (v : Word32) (s : State) : Result := .next (s.putStage fun g => { g with pers := g.pers.set k v })

/-- RD PERSk (R117). -/
def execRdPers (k : Fin 4) (s : State) : Result := .next (s.respond (s.eng.readReg (.pers k)))

/-- RD DOUTk (R118). -/
def execRdDout (k : Fin 16) (s : State) : Result := .next (s.respond (s.eng.readReg (.dout k)))

/-- WR DOUTk: ignored (R118, R119). -/
def execWrDout (_k : Fin 16) (_v : Word32) (s : State) : Result := .next s

/-- RD or WR of a reserved offset: the read returns 0, the write is ignored (R120). -/
def execReserved (_addr : BitVec 8) (wdata : Option Word32) (s : State) : Result :=
  match wdata with
  | none => .next (s.respond (s.eng.readReg .reserved))
  | some _ => .next s

end Sys2Proof.Machine
end

