-- ==== Sys2Proof/Machine/Dispatch.lean ====
section
/-! DEFINITION. One arm per constructor of Instr. -/

namespace Sys2Proof.Machine

def exec (i : Instr) (s : State) : Host.Outcome State Fault Refusal :=
  match i with
  | .nop => Sys2Proof.Machine.execNop s
  | .init ctx => Sys2Proof.Machine.execInit ctx s
  | .update len ctx => Sys2Proof.Machine.execUpdate len ctx s
  | .final ctx => Sys2Proof.Machine.execFinal ctx s
  | .clone ctx src => Sys2Proof.Machine.execClone ctx src s
  | .illegal f => Sys2Proof.Machine.execIllegal f s
  | .rdId => Sys2Proof.Machine.execRdId s
  | .wrId v => Sys2Proof.Machine.execWrId v s
  | .rdStatus => Sys2Proof.Machine.execRdStatus s
  | .wrStatus v => Sys2Proof.Machine.execWrStatus v s
  | .wrCmd w => Sys2Proof.Machine.execWrCmd w s
  | .rdCmd => Sys2Proof.Machine.execRdCmd s
  | .wrDin k v => Sys2Proof.Machine.execWrDin k v s
  | .rdDin k => Sys2Proof.Machine.execRdDin k s
  | .wrCfg k v => Sys2Proof.Machine.execWrCfg k v s
  | .wrCfg5 v => Sys2Proof.Machine.execWrCfg5 v s
  | .rdCfg k => Sys2Proof.Machine.execRdCfg k s
  | .wrKey k v => Sys2Proof.Machine.execWrKey k v s
  | .rdKey k => Sys2Proof.Machine.execRdKey k s
  | .wrSalt k v => Sys2Proof.Machine.execWrSalt k v s
  | .rdSalt k => Sys2Proof.Machine.execRdSalt k s
  | .wrPers k v => Sys2Proof.Machine.execWrPers k v s
  | .rdPers k => Sys2Proof.Machine.execRdPers k s
  | .rdDout k => Sys2Proof.Machine.execRdDout k s
  | .wrDout k v => Sys2Proof.Machine.execWrDout k v s
  | .reserved addr wdata => Sys2Proof.Machine.execReserved addr wdata s

end Sys2Proof.Machine
end

