-- ==== Sys2Proof/Machine/Fetch.lean ====
section
/-! DEFINITION. Taking the next event from the bus (20_memory.md R38, 70_reset_and_hazards.md R146, R149, R157), and placing one. -/

namespace Sys2Proof.Machine

/-- What the next bus event makes the engine do: nothing, an instruction in a state, a reset that is already taken, or a refusal. -/
inductive Fetched where
  | idle
  | run (i : Instr) (s : State)
  | restarted (s : State)
  | reject (r : Refusal)
  deriving DecidableEq, Repr

/-- The refusal of a form that has no instruction (R34, R144). -/
def refusalOf : DecodeReject → Refusal
  | .hostProtocol addr width => .hostProtocol addr width

/-- The next event. Accesses are taken one at a time in bus order (R38). A reset is taken between two accesses (R146), or it cuts a
stalled CMD write, which is then finished with no effect (R149). With no event the engine is idle (R157). -/
def fetch (s : State) : Fetched :=
  match s.bus.pending with
  | [] => .idle
  | .access a :: rest =>
    match decodeAccess a with
    | .ok i => .run i (s.pop rest)
    | .error r => .reject (refusalOf r)
  | .reset :: rest => .restarted (s.pop rest).resetEngine
  | .resetInCmd _ :: rest => .restarted (s.pop rest).resetEngine

/-- The bus event that carries a form: a command word comes as a write of CMD (30_encoding.md R41). -/
def eventOf : Form → HostEvent
  | .command w => .access ⟨0x08, 4, some w⟩
  | .transaction a => .access a

/-- The machine with an event placed first on the bus. -/
def State.place (s : State) (ev : HostEvent) : State := { s with bus := { s.bus with pending := ev :: s.bus.pending } }

end Sys2Proof.Machine
end

