-- ==== Sys2Proof/Machine/Step.lean ====
section
/-! DEFINITION. One step: the next bus event, run to its end (20_memory.md R37, R38). -/

namespace Sys2Proof.Machine

def step (s : State) : Host.Outcome State Fault Refusal :=
  match fetch s with
  | .idle => .next s
  | .run i s' => exec i s'
  | .restarted s' => .next s'
  | .reject r => .refused r

/-- `s` with the form that opcode_table.json's bits `w` spell placed first on the bus, where `step` takes its next event. -/
def State.withFetchWord (s : State) (nbits w : Nat) : State := s.place (eventOf (tableForm nbits w))

end Sys2Proof.Machine
end

