-- ==== Sys2Proof/Machine/Reference.lean ====
section
/-! DEFINITION. The hash of a whole message in closed form, by which the streaming operations are judged (42_streaming.md R91, R92, R93).
No step runs these functions. -/

namespace Sys2Proof.Machine

/-- The number of blocks compressed when `n` bytes have been absorbed: `max(0, ⌈n / bb⌉ − 1)` (10_state.md R23, R91). -/
def blocksDone (V : Variant) (n : Nat) : Nat := (n + V.bb - 1) / V.bb - 1

/-- The chaining value after the first `k` blocks of `data`, in order, none of them the last: block `i` is compressed with the counter
`(i + 1)·bb` and flags `(0, 0)` (R89, R91). -/
def chainBlocks (V : Variant) (h : Vector (Word V) 8) (data : List Byte) : Nat → Vector (Word V) 8
  | 0 => h
  | k + 1 => compress (chainBlocks V h data k) (slice data (k * V.bb) ((k + 1) * V.bb))
      (BitVec.ofNat (2 * V.w) ((k + 1) * V.bb)) 0 0

/-- The digest of `msg` under the configuration `C`: the key block first (R83), every block but the last through `chainBlocks`, and
the last 0 to `bb` bytes zero-padded, with the counter at the number of bytes and the flags of R93. -/
def hashOf (V : Variant) (C : HashConfig) (msg : List Byte) : List Byte :=
  let data := keyBlock V C ++ msg
  let k := blocksDone V data.length
  let rest := data.drop (k * V.bb)
  let h := compress (chainBlocks V (initialH V C) data k) (rest ++ zeros (V.bb - rest.length))
    (BitVec.ofNat (2 * V.w) data.length) (ones V) (lastNodeFlag V C.lastNode)
  (serialize h).take C.nn.toNat

end Sys2Proof.Machine
end

