-- ==== Sys2Proof/Safety.lean ====
section
/-! DEFINITION. What a safe run is: the invariants the spec gives every state between commands (10_state.md R20, R23, R31, R32), and
the one duty whose breach stops the machine, that a host makes only 32-bit aligned accesses (70_reset_and_hazards.md R158). -/

namespace Sys2Proof.Machine

/-- `n` bytes have been absorbed: what the buffer's length and the counter are (R23.3). -/
def Ctx.absorbed {V : Variant} (c : Ctx V) (n : Nat) : Prop :=
  c.buf.length = n - V.bb * blocksDone V n ∧ c.t = BitVec.ofNat (2 * V.w) (V.bb * blocksDone V n)

/-- The invariants of a context between commands: an EMPTY one is the EMPTY record (R32, R86), a READY one has clear flags, a legal
digest size and a stream position (R20, R23.1, R23.3), a FINAL one has its flags set by `ln` alone, an empty buffer and a cached
digest of `nn` bytes (R20, R23.4). -/
def Ctx.Inv {V : Variant} (c : Ctx V) : Prop :=
  match c.st with
  | .empty => c = Ctx.emptyRecord V
  | .ready => c.f0 = 0 ∧ c.f1 = 0 ∧ 1 ≤ c.nn.toNat ∧ c.nn.toNat ≤ V.nnMax ∧ ∃ n, c.absorbed n
  | .final => c.buf = [] ∧ c.f0 = ones V ∧ c.f1 = lastNodeFlag V c.ln ∧ 1 ≤ c.nn.toNat ∧ c.nn.toNat ≤ V.nnMax ∧
      c.dig.length = c.nn.toNat

/-- The byte of DOUT at digest position `p` (R31). -/
def doutByte (dout : Vector Word32 16) (p : Nat) : Byte := (bankBytes dout).getD p 0

/-- The invariants of an engine between commands: `1 ≤ NCTX ≤ 16` (R6), the contexts' own, digest bytes at positions `≥ DLEN` read as 0
(R31), and the round index is below `R`, as it is during a compression (R16); that it is so between commands too is the model's choice
(notes/assumptions/2.md). -/
def Engine.Inv {V : Variant} (e : Engine V) : Prop :=
  1 ≤ e.nctx ∧ e.nctx ≤ 16 ∧ (∀ c ∈ e.ctx, c.Inv) ∧ e.status.dlen.toNat ≤ V.nnMax ∧
  (∀ p, e.status.dlen.toNat ≤ p → doutByte e.dout p = 0) ∧ e.dp.r < V.rounds

/-- The machine's invariant. -/
def State.Inv (s : State) : Prop := s.eng.Inv

/-- An access the engine admits: 32-bit and word-aligned (R34). -/
def Access.conforming (a : Access) : Bool := a.width == 4 && aligned a.addr

/-- An event that carries no protocol violation. -/
def HostEvent.conforming : HostEvent → Bool
  | .access a => Access.conforming a
  | .reset => true
  | .resetInCmd _ => true

/-- Every event the bus has yet to deliver keeps the host's duty (R158). -/
def State.conforming (s : State) : Bool := s.bus.pending.all HostEvent.conforming

/-- A step that stops: the machine has no fault, so only a refusal stops it. -/
def Stops (s : State) : Prop := ∃ r, step s = .refused r

end Sys2Proof.Machine
end

