-- ==== Sys2Proof/Certificates/Slice0/Obligations.lean ====
section
/-! DEFINITION. The statements for the provers. Every one holds for both variants and for every number of contexts: `V` and the engine
`e` are free, and nothing rests on the variant or the `NCTX` that Config names (notes/assumptions/1.md). -/

open Sys2Proof Sys2Proof.Machine

/-! ### Encoding -/

/-- R41 to R46, R36: no bit of an encoding is dropped. -/
def Obligations.DecodeOfEncodeIsTheInstruction : Prop :=
  ∀ i : Instr, i.wellFormed = true → decode (encode i) = .ok i

/-- R41: a form that decodes is the encoding of what it decodes to, which is well formed. So no two forms share an instruction. -/
def Obligations.EncodeOfDecodeIsTheForm : Prop :=
  ∀ (f : Form) (i : Instr), decode f = .ok i → encode i = f ∧ i.wellFormed = true

/-- R44: the five commands as match and mask pairs over the command word, with the range check of LEN; every other OP is reserved. -/
def Obligations.CommandsAreTheMatchAndMaskRows : Prop :=
  ∀ w : Word32,
    (decodeCommand w = .nop ↔ w = 0x00000000) ∧
    (∀ c, decodeCommand w = .init c ↔ w &&& 0xFFFF0FFF = 0x00000001 ∧ c = w.extractLsb' 12 4) ∧
    (∀ len c, decodeCommand w = .update len c ↔
      w &&& 0xFFFF00FF = 0x00000002 ∧ len.toNat ≤ 8 ∧ len = w.extractLsb' 8 4 ∧ c = w.extractLsb' 12 4) ∧
    (∀ c, decodeCommand w = .final c ↔ w &&& 0xFFFF0FFF = 0x00000003 ∧ c = w.extractLsb' 12 4) ∧
    (∀ d s, decodeCommand w = .clone d s ↔
      w &&& 0xFFF00FFF = 0x00000004 ∧ d = w.extractLsb' 12 4 ∧ s = w.extractLsb' 16 4) ∧
    (5 ≤ (w.extractLsb' 0 8).toNat → ∃ f, decodeCommand w = .illegal f)

/-- R45: a word decodes to ILLEGAL exactly when one of the seven conditions holds, and it then writes `ERR = ILLEGAL` and nothing else. That the words
R46 rejects decode to their command and are ILLEGAL by its meaning is the model's split of the two rules (notes/assumptions/6.md). -/
def Obligations.IllegalWordsAreTheSevenConditions : Prop :=
  ∀ w : Word32,
    let op := (w.extractLsb' 0 8).toNat
    let len := (w.extractLsb' 8 4).toNat
    let ctx := (w.extractLsb' 12 4).toNat
    let src := (w.extractLsb' 16 4).toNat
    let rsv := (w.extractLsb' 20 12).toNat
    ((∃ f, decodeCommand w = .illegal f) ↔
      rsv ≠ 0 ∨ 5 ≤ op ∨ (op = 0 ∧ (len ≠ 0 ∨ ctx ≠ 0 ∨ src ≠ 0)) ∨ ((op = 1 ∨ op = 3) ∧ (len ≠ 0 ∨ src ≠ 0)) ∨
      (op = 2 ∧ src ≠ 0) ∨ (op = 2 ∧ 8 < len) ∨ (op = 4 ∧ len ≠ 0)) ∧
    ((∃ f, decodeCommand w = .illegal f) → ∀ (V : Variant) (e : Engine V) (b : Bus),
      exec (.wrCmd w) ⟨V, e, b⟩ = .next ⟨V, { e with status := { e.status with err := .illegal } }, b⟩)

/-- R46: a command whose CTX, or a CLONE whose SRC, is not below `NCTX` is ILLEGAL. With 16 contexts every index is in range. -/
def Obligations.ContextOutOfRangeIsIllegal : Prop :=
  ∀ (V : Variant) (e : Engine V) (b : Bus) (c d len : BitVec 4), e.ctx.length ≤ c.toNat →
    let t : Host.Outcome State Fault Refusal := .next ⟨V, { e with status := { e.status with err := .illegal } }, b⟩
    e.ctx.length ≠ 16 ∧
    exec (.init c) ⟨V, e, b⟩ = t ∧ exec (.update len c) ⟨V, e, b⟩ = t ∧ exec (.final c) ⟨V, e, b⟩ = t ∧
    exec (.clone c d) ⟨V, e, b⟩ = t ∧ exec (.clone d c) ⟨V, e, b⟩ = t

/-- R42, R44, R36: a few words and accesses written out from the spec's encodings. -/
def Obligations.WrittenOutWordsDecode : Prop :=
  decodeCommand 0x00000000 = .nop ∧
  decodeCommand 0x00001001 = .init 1 ∧
  decodeCommand 0x00001302 = .update 3 1 ∧
  decodeCommand 0x00001003 = .final 1 ∧
  decodeCommand 0x00001004 = .clone 1 0 ∧
  decodeCommand 0x00020004 = .clone 0 2 ∧
  decodeCommand 0x00000902 = .illegal ⟨2, 9, 0, 0, 0⟩ ∧
  decodeAccess ⟨0x08, 4, some 0x00000302⟩ = .ok (.wrCmd 0x00000302) ∧
  decodeAccess ⟨0x34, 4, some 1⟩ = .ok (.wrCfg5 1) ∧
  decodeAccess ⟨0x44, 4, some 0xa5a5a5a5⟩ = .ok (.wrKey 1 0xa5a5a5a5) ∧
  decodeAccess ⟨0xFC, 4, none⟩ = .ok (.rdDout 15)

/-- R36: the register window map, with its reserved offsets. -/
def Obligations.WindowMap : Prop :=
  regAt 0x00 = .id ∧ regAt 0x04 = .status ∧ regAt 0x08 = .cmd ∧
  (∀ k : Fin 2, regAt (BitVec.ofNat 8 (0x10 + 4 * k)) = .din k) ∧
  (∀ k : Fin 6, regAt (BitVec.ofNat 8 (0x20 + 4 * k)) = .cfg k) ∧
  (∀ k : Fin 16, regAt (BitVec.ofNat 8 (0x40 + 4 * k)) = .key k) ∧
  (∀ k : Fin 4, regAt (BitVec.ofNat 8 (0x80 + 4 * k)) = .salt k) ∧
  (∀ k : Fin 4, regAt (BitVec.ofNat 8 (0x90 + 4 * k)) = .pers k) ∧
  (∀ k : Fin 16, regAt (BitVec.ofNat 8 (0xC0 + 4 * k)) = .dout k) ∧
  (∀ a : BitVec 8, a.toNat % 4 = 0 →
    (regAt a = .reserved ↔ a = 0x0C ∨ a = 0x18 ∨ a = 0x1C ∨ a = 0x38 ∨ a = 0x3C ∨ (0xA0 ≤ a.toNat ∧ a.toNat ≤ 0xBC)))

/-! ### The bus and the step -/

/-- R38, R41: the access that is next on the bus, when it decodes, is run as the instruction it decodes to, in the state without it. -/
def Obligations.StepRunsTheDecodedAccess : Prop :=
  ∀ (V : Variant) (e : Engine V) (a : Access) (rest : List HostEvent) (reads : List Word32) (i : Instr),
    decodeAccess a = .ok i →
    step ⟨V, e, ⟨.access a :: rest, reads⟩⟩ = exec i ⟨V, e, ⟨rest, reads⟩⟩

/-- R101: a write of `w` to CMD runs the one command `w` decodes to, within that step, and answers a next state. -/
def Obligations.CmdWriteRunsOneCommand : Prop :=
  ∀ (V : Variant) (e : Engine V) (w : Word32) (rest : List HostEvent) (reads : List Word32),
    step ⟨V, e, ⟨.access ⟨0x08, 4, some w⟩ :: rest, reads⟩⟩ = exec (.wrCmd w) ⟨V, e, ⟨rest, reads⟩⟩ ∧
    exec (.wrCmd w) ⟨V, e, ⟨rest, reads⟩⟩ = exec (decodeCommand w).toInstr ⟨V, e, ⟨rest, reads⟩⟩ ∧
    ∃ e' : Engine V, exec (.wrCmd w) ⟨V, e, ⟨rest, reads⟩⟩ = .next ⟨V, e', ⟨rest, reads⟩⟩

/-- R34, R144: a step is refused exactly when the next access is not 32-bit or not word-aligned; the refusal names it. -/
def Obligations.StepRefusesExactlyProtocolViolations : Prop :=
  ∀ (s : State) (r : Refusal), step s = .refused r ↔
    ∃ a rest, s.bus.pending = .access a :: rest ∧ (a.width ≠ 4 ∨ a.addr.toNat % 4 ≠ 0) ∧ r = .hostProtocol a.addr a.width

/-- R157: the engine is idle between accesses. -/
def Obligations.IdleWithoutAccess : Prop :=
  ∀ (V : Variant) (e : Engine V) (reads : List Word32), step ⟨V, e, ⟨[], reads⟩⟩ = .next ⟨V, e, ⟨[], reads⟩⟩

/-- R146, R149: a reset, between two accesses or in a stalled CMD write, puts every piece of engine state in its reset value, whatever
it was, and keeps the variant and `NCTX`; the cut write has no effect. -/
def Obligations.ResetTakesTheResetState : Prop :=
  ∀ (V : Variant) (e : Engine V) (rest : List HostEvent) (reads : List Word32) (w : Word32),
    step ⟨V, e, ⟨.reset :: rest, reads⟩⟩ = .next ⟨V, Engine.reset V e.ctx.length, ⟨rest, reads⟩⟩ ∧
    step ⟨V, e, ⟨.resetInCmd w :: rest, reads⟩⟩ = .next ⟨V, Engine.reset V e.ctx.length, ⟨rest, reads⟩⟩

/-- R147, R32: what reset leaves: every register as the host reads it, and every context EMPTY with zero fields. The datapath's reset
values are the model's own (notes/assumptions/2.md) and are not stated. -/
def Obligations.ResetValues : Prop :=
  ∀ (V : Variant) (n : Nat), 1 ≤ n → n ≤ 16 →
    (Engine.reset V n).ctx = List.replicate n
      { st := .empty, h := Vector.replicate 8 0, t := 0, f0 := 0, f1 := 0, buf := [], nn := 0, ln := 0, dig := [] } ∧
    ∀ a : BitVec 8, a.toNat % 4 = 0 →
      ((Engine.reset V n).peek a).toNat =
        match V, a.toNat with
        | .B, 0x00 => 0xB2000C40 + n * 2 ^ 16
        | .S, 0x00 => 0xB2000A20 + n * 2 ^ 16
        | .B, 0x20 => 0x01010040
        | .S, 0x20 => 0x01010020
        | _, _ => 0

/-- R126, R135, R2: every instruction, in every state, answers a next state of the same variant with the same contexts' number; it takes
nothing from the bus and returns at most one value. -/
def Obligations.EveryInstructionCompletes : Prop :=
  ∀ (i : Instr) (V : Variant) (e : Engine V) (b : Bus), ∃ (e' : Engine V) (out : List Word32),
    exec i ⟨V, e, b⟩ = .next ⟨V, e', ⟨b.pending, b.reads ++ out⟩⟩ ∧ e'.ctx.length = e.ctx.length ∧ out.length ≤ 1

/-! ### Register accesses -/

/-- R108, R24: the register at offset 0x00, ID, reads as the signature, `NCTX`, the round count and the word width; a write of it is ignored. -/
def Obligations.RdIdReturnsTheIdentity : Prop :=
  ∀ (V : Variant) (e : Engine V) (b : Bus), e.ctx.length ≤ 16 → ∃ x : Word32,
    exec .rdId ⟨V, e, b⟩ = .next ⟨V, e, ⟨b.pending, b.reads ++ [x]⟩⟩ ∧
    x.extractLsb' 24 8 = 0xB2 ∧ (x.extractLsb' 16 8).toNat = e.ctx.length ∧
    (x.extractLsb' 8 8).toNat = (if V = .B then 12 else 10) ∧
    (x.extractLsb' 0 8).toNat = (if V = .B then 64 else 32) ∧
    decodeAccess ⟨0x00, 4, none⟩ = .ok .rdId ∧
    ∀ v, decodeAccess ⟨0x00, 4, some v⟩ = .ok (.wrId v) ∧ exec (.wrId v) ⟨V, e, b⟩ = .next ⟨V, e, b⟩

/-- R109, R26, R127: the register at offset 0x04, STATUS, reads as its fields, with the codes of ERR and of CSTATE, and keeps them; a write of it is ignored. -/
def Obligations.RdStatusReturnsTheFields : Prop :=
  ∀ (V : Variant) (e : Engine V) (b : Bus), ∃ x : Word32,
    exec .rdStatus ⟨V, e, b⟩ = .next ⟨V, e, ⟨b.pending, b.reads ++ [x]⟩⟩ ∧
    (x.extractLsb' 0 4).toNat = (match e.status.err with | .ok => 0 | .config => 1 | .state => 2 | .illegal => 3 | .noctx => 4) ∧
    (x.extractLsb' 4 2).toNat = (match e.status.cstate with | .empty => 0 | .ready => 1 | .final => 2) ∧
    x.extractLsb' 6 2 = 0 ∧ x.extractLsb' 8 8 = e.status.dlen ∧ x.extractLsb' 16 16 = 0 ∧
    decodeAccess ⟨0x04, 4, none⟩ = .ok .rdStatus ∧
    ∀ v, decodeAccess ⟨0x04, 4, some v⟩ = .ok (.wrStatus v) ∧ exec (.wrStatus v) ⟨V, e, b⟩ = .next ⟨V, e, b⟩

/-- R110, R112, R115, R117, R118, R120: the other reads return the stored words, or 0, and change nothing else. -/
def Obligations.ReadsReturnTheStoredWords : Prop :=
  ∀ (V : Variant) (e : Engine V) (b : Bus),
    let ret (x : Word32) : Host.Outcome State Fault Refusal := .next ⟨V, e, ⟨b.pending, b.reads ++ [x]⟩⟩
    exec .rdCmd ⟨V, e, b⟩ = ret 0 ∧
    (∀ k, exec (.rdDin k) ⟨V, e, b⟩ = ret e.stage.din[k]) ∧
    (∀ k : Fin 5, exec (.rdCfg k.castSucc) ⟨V, e, b⟩ = ret e.stage.cfg[k]) ∧
    exec (.rdCfg 5) ⟨V, e, b⟩ = ret (if e.stage.cfg5 = 1 then 1 else 0) ∧
    (∀ k, exec (.rdKey k) ⟨V, e, b⟩ = ret e.stage.key[k]) ∧
    (∀ k, exec (.rdSalt k) ⟨V, e, b⟩ = ret e.stage.salt[k]) ∧
    (∀ k, exec (.rdPers k) ⟨V, e, b⟩ = ret e.stage.pers[k]) ∧
    (∀ k, exec (.rdDout k) ⟨V, e, b⟩ = ret e.dout[k]) ∧
    (∀ a, exec (.reserved a none) ⟨V, e, b⟩ = ret 0)

/-- R111, R113, R114, R116: a write of a staging register stores its value there and changes nothing else. -/
def Obligations.StagingWritesStore : Prop :=
  ∀ (V : Variant) (e : Engine V) (b : Bus) (v : Word32),
    (∀ k, exec (.wrDin k v) ⟨V, e, b⟩ = .next ⟨V, { e with stage := { e.stage with din := e.stage.din.set k v } }, b⟩) ∧
    (∀ k, exec (.wrCfg k v) ⟨V, e, b⟩ = .next ⟨V, { e with stage := { e.stage with cfg := e.stage.cfg.set k v } }, b⟩) ∧
    exec (.wrCfg5 v) ⟨V, e, b⟩ = .next ⟨V, { e with stage := { e.stage with cfg5 := v.extractLsb' 0 1 } }, b⟩ ∧
    (∀ k, exec (.wrKey k v) ⟨V, e, b⟩ = .next ⟨V, { e with stage := { e.stage with key := e.stage.key.set k v } }, b⟩) ∧
    (∀ k, exec (.wrSalt k v) ⟨V, e, b⟩ = .next ⟨V, { e with stage := { e.stage with salt := e.stage.salt.set k v } }, b⟩) ∧
    (∀ k, exec (.wrPers k v) ⟨V, e, b⟩ = .next ⟨V, { e with stage := { e.stage with pers := e.stage.pers.set k v } }, b⟩)

/-- R119, R120: writes to ID, STATUS, DOUT and the reserved offsets are ignored. -/
def Obligations.IgnoredWritesChangeNothing : Prop :=
  ∀ (s : State) (v : Word32), exec (.wrId v) s = .next s ∧ exec (.wrStatus v) s = .next s ∧
    (∀ k, exec (.wrDout k v) s = .next s) ∧ (∀ a, exec (.reserved a (some v)) s = .next s)

/-- R120: a read of a reserved offset returns 0, and a write to one is ignored. -/
def Obligations.ReservedOffsetsReadZeroAndIgnoreWrites : Prop :=
  ∀ (V : Variant) (e : Engine V) (a : BitVec 8) (v : Word32) (rest : List HostEvent) (reads : List Word32),
    (a = 0x0C ∨ a = 0x18 ∨ a = 0x1C ∨ a = 0x38 ∨ a = 0x3C ∨ (0xA0 ≤ a.toNat ∧ a.toNat ≤ 0xBC ∧ a.toNat % 4 = 0)) →
    step ⟨V, e, ⟨.access ⟨a, 4, none⟩ :: rest, reads⟩⟩ = .next ⟨V, e, ⟨rest, reads ++ [0]⟩⟩ ∧
    step ⟨V, e, ⟨.access ⟨a, 4, some v⟩ :: rest, reads⟩⟩ = .next ⟨V, e, ⟨rest, reads⟩⟩

/-- R37, R36: a read of any aligned offset has no side effect; it returns what the window holds there. -/
def Obligations.EveryReadIsFreeOfSideEffects : Prop :=
  ∀ (V : Variant) (e : Engine V) (a : BitVec 8) (rest : List HostEvent) (reads : List Word32), a.toNat % 4 = 0 →
    step ⟨V, e, ⟨.access ⟨a, 4, none⟩ :: rest, reads⟩⟩ = .next ⟨V, e, ⟨rest, reads ++ [e.peek a]⟩⟩

/-- R25, R36, R37, R119: a write of any aligned offset but CMD is seen by later reads at that offset alone, and there only if it is a staging
register; it touches no context, STATUS field, DOUT word or the datapath. -/
def Obligations.WriteIsReadBackThereAlone : Prop :=
  ∀ (V : Variant) (e : Engine V) (a : BitVec 8) (v : Word32) (rest : List HostEvent) (reads : List Word32),
    a.toNat % 4 = 0 → a ≠ 0x08 → ∃ e' : Engine V,
      step ⟨V, e, ⟨.access ⟨a, 4, some v⟩ :: rest, reads⟩⟩ = .next ⟨V, e', ⟨rest, reads⟩⟩ ∧
      e'.ctx = e.ctx ∧ e'.dp = e.dp ∧ e'.status = e.status ∧ e'.dout = e.dout ∧
      ∀ a' : BitVec 8, a'.toNat % 4 = 0 → e'.peek a' =
        if a' = a ∧ ((0x10 ≤ a.toNat ∧ a.toNat < 0x18) ∨ (0x20 ≤ a.toNat ∧ a.toNat < 0x38) ∨ (0x40 ≤ a.toNat ∧ a.toNat < 0xA0))
        then (if a = 0x34 then v &&& 1 else v) else e.peek a'

/-! ### Commands -/

/-- R102, R107, R130: NOP clears ERR, ILLEGAL writes `ERR = ILLEGAL`, and neither changes anything else. -/
def Obligations.NopAndIllegalWriteErrAlone : Prop :=
  ∀ (V : Variant) (e : Engine V) (b : Bus) (f : CommandFields),
    exec .nop ⟨V, e, b⟩ = .next ⟨V, { e with status := { e.status with err := .ok } }, b⟩ ∧
    exec (.illegal f) ⟨V, e, b⟩ = .next ⟨V, { e with status := { e.status with err := .illegal } }, b⟩

/-- R53, R51: the legal ranges of a configuration, read from the staging registers' fields. -/
def Obligations.ValidityIsTheFiveChecks : Prop :=
  ∀ (V : Variant) (g : Staging), (snapshot g).valid V = true ↔
    let nn := (g.cfg[0].extractLsb' 0 8).toNat
    let kk := (g.cfg[0].extractLsb' 8 8).toNat
    let saltLen := (g.cfg[4].extractLsb' 16 8).toNat
    let persLen := (g.cfg[4].extractLsb' 24 8).toNat
    match V with
    | .B => 1 ≤ nn ∧ nn ≤ 64 ∧ kk ≤ 64 ∧ saltLen ≤ 16 ∧ persLen ≤ 16
    | .S => 1 ≤ nn ∧ nn ≤ 32 ∧ kk ≤ 32 ∧ saltLen ≤ 8 ∧ persLen ≤ 8 ∧ g.cfg[3].extractLsb' 16 16 = 0

/-- R103, R85, R59, R83, R87, R51: INIT of a legal configuration constructs a READY context from the staging registers: `h = IV ^ PW`, clear counter
and flags, `nn` and `ln` from CFG0 and CFG5, the padded key block in the buffer and not compressed. -/
def Obligations.InitConstructsTheHasher : Prop :=
  ∀ (V : Variant) (e : Engine V) (b : Bus) (c : BitVec 4), c.toNat < e.ctx.length → (snapshot e.stage).valid V = true →
    let P := paramBlock V (snapshot e.stage)
    let kk := (e.stage.cfg[0].extractLsb' 8 8).toNat
    exec (.init c) ⟨V, e, b⟩ = .next ⟨V,
      { e with
        ctx := e.ctx.set c.toNat
          { st := .ready
            h := Vector.ofFn fun i => (iv V)[i] ^^^ BitVec.ofNat V.w (leNat (slice P (i.val * V.wb) ((i.val + 1) * V.wb)))
            t := 0, f0 := 0, f1 := 0
            buf := if kk = 0 then [] else (bankBytes e.stage.key).take kk ++ List.replicate (V.bb - kk) 0
            nn := e.stage.cfg[0].extractLsb' 0 8, ln := e.stage.cfg5, dig := [] }
        status := { e.status with err := .ok, cstate := .ready } }, b⟩

/-- R128, R86: INIT of an illegal configuration reports CONFIG and leaves its context EMPTY. -/
def Obligations.InitOfInvalidConfigurationEmptiesTheContext : Prop :=
  ∀ (V : Variant) (e : Engine V) (b : Bus) (c : BitVec 4), c.toNat < e.ctx.length → (snapshot e.stage).valid V = false →
    exec (.init c) ⟨V, e, b⟩ = .next ⟨V,
      { e with
        ctx := e.ctx.set c.toNat
          { st := .empty, h := Vector.replicate 8 0, t := 0, f0 := 0, f1 := 0, buf := [], nn := 0, ln := 0, dig := [] }
        status := { e.status with err := .config, cstate := .empty } }, b⟩

/-- R55, R57, R51, R52: the B parameter block, byte by byte, from the staging registers. -/
def Obligations.ParameterBlockLayoutOfB : Prop :=
  ∀ g : Staging, (snapshot g).valid .B = true →
    let P := paramBlock .B (snapshot g)
    let byte (x : Word32) (i : Nat) : Byte := x.extractLsb' (8 * i) 8
    let saltLen := (g.cfg[4].extractLsb' 16 8).toNat
    let persLen := (g.cfg[4].extractLsb' 24 8).toNat
    P.length = 64 ∧ P.getD 0 0 = g.cfg[0].extractLsb' 0 8 ∧ P.getD 1 0 = g.cfg[0].extractLsb' 8 8 ∧
    P.getD 2 0 = g.cfg[0].extractLsb' 16 8 ∧ P.getD 3 0 = g.cfg[0].extractLsb' 24 8 ∧
    (∀ i, i < 4 → P.getD (4 + i) 0 = byte g.cfg[1] i) ∧
    (∀ i, i < 4 → P.getD (8 + i) 0 = byte g.cfg[2] i) ∧ (∀ i, i < 4 → P.getD (12 + i) 0 = byte g.cfg[3] i) ∧
    P.getD 16 0 = g.cfg[4].extractLsb' 0 8 ∧ P.getD 17 0 = g.cfg[4].extractLsb' 8 8 ∧ (∀ p, 18 ≤ p → p < 32 → P.getD p 0 = 0) ∧
    (∀ k i : Fin 4, P.getD (32 + (4 * k.val + i.val)) 0 = if 4 * k.val + i.val < saltLen then byte g.salt[k] i.val else 0) ∧
    (∀ k i : Fin 4, P.getD (48 + (4 * k.val + i.val)) 0 = if 4 * k.val + i.val < persLen then byte g.pers[k] i.val else 0)

/-- R56, R57, R51, R52: the S parameter block, byte by byte, from the staging registers. -/
def Obligations.ParameterBlockLayoutOfS : Prop :=
  ∀ g : Staging, (snapshot g).valid .S = true →
    let P := paramBlock .S (snapshot g)
    let byte (x : Word32) (i : Nat) : Byte := x.extractLsb' (8 * i) 8
    let saltLen := (g.cfg[4].extractLsb' 16 8).toNat
    let persLen := (g.cfg[4].extractLsb' 24 8).toNat
    P.length = 32 ∧ P.getD 0 0 = g.cfg[0].extractLsb' 0 8 ∧ P.getD 1 0 = g.cfg[0].extractLsb' 8 8 ∧
    P.getD 2 0 = g.cfg[0].extractLsb' 16 8 ∧ P.getD 3 0 = g.cfg[0].extractLsb' 24 8 ∧
    (∀ i, i < 4 → P.getD (4 + i) 0 = byte g.cfg[1] i) ∧
    (∀ i, i < 4 → P.getD (8 + i) 0 = byte g.cfg[2] i) ∧ (∀ i, i < 2 → P.getD (12 + i) 0 = byte g.cfg[3] i) ∧
    P.getD 14 0 = g.cfg[4].extractLsb' 0 8 ∧ P.getD 15 0 = g.cfg[4].extractLsb' 8 8 ∧
    (∀ (k : Fin 2) (i : Fin 4), P.getD (16 + (4 * k.val + i.val)) 0 =
      if 4 * k.val + i.val < saltLen then byte (g.salt[k.val]'(by omega)) i.val else 0) ∧
    (∀ (k : Fin 2) (i : Fin 4), P.getD (24 + (4 * k.val + i.val)) 0 =
      if 4 * k.val + i.val < persLen then byte (g.pers[k.val]'(by omega)) i.val else 0)

/-- R104, R89, R43: UPDATE of a READY context appends `LEN` bytes of DIN; when they bring the buffer over one block, it compresses the oldest
block once with flags `(0, 0)`, after the counter has advanced, and drops it. -/
def Obligations.UpdateAbsorbsItsBytes : Prop :=
  ∀ (V : Variant) (e : Engine V) (b : Bus) (len c : BitVec 4) (r : Ctx V), len.toNat ≤ 8 →
    e.ctx[c.toNat]? = some r → r.st = .ready → r.buf.length ≤ V.bb →
    let buf := r.buf ++ (toLE 4 e.stage.din[0].toNat ++ toLE 4 e.stage.din[1].toNat).take len.toNat
    (buf.length ≤ V.bb → exec (.update len c) ⟨V, e, b⟩ = .next ⟨V,
      { e with
        ctx := e.ctx.set c.toNat { r with buf := buf }
        status := { e.status with err := .ok, cstate := .ready } }, b⟩) ∧
    (V.bb < buf.length → ∃ dp, exec (.update len c) ⟨V, e, b⟩ = .next ⟨V,
      { e with
        ctx := e.ctx.set c.toNat
          { r with
            t := r.t + BitVec.ofNat (2 * V.w) V.bb
            h := compress r.h (buf.take V.bb) (r.t + BitVec.ofNat (2 * V.w) V.bb) 0 0
            buf := buf.drop V.bb }
        dp := dp
        status := { e.status with err := .ok, cstate := .ready } }, b⟩)

/-- R131: UPDATE or FINAL of an EMPTY context, or CLONE from one, reports NOCTX and changes nothing else. -/
def Obligations.EmptyContextReportsNoctx : Prop :=
  ∀ (V : Variant) (e : Engine V) (b : Bus) (len c d : BitVec 4) (r : Ctx V),
    e.ctx[c.toNat]? = some r → r.st = .empty → d.toNat < e.ctx.length →
    let t : Host.Outcome State Fault Refusal :=
      .next ⟨V, { e with status := { e.status with err := .noctx, cstate := .empty } }, b⟩
    exec (.update len c) ⟨V, e, b⟩ = t ∧ exec (.final c) ⟨V, e, b⟩ = t ∧ exec (.clone d c) ⟨V, e, b⟩ = t

/-- R129, R90: UPDATE of a FINAL context reports STATE and changes nothing else. -/
def Obligations.UpdateOfFinalReportsState : Prop :=
  ∀ (V : Variant) (e : Engine V) (b : Bus) (len c : BitVec 4) (r : Ctx V), e.ctx[c.toNat]? = some r → r.st = .final →
    exec (.update len c) ⟨V, e, b⟩ = .next ⟨V, { e with status := { e.status with err := .state, cstate := .final } }, b⟩

/-- R105, R93, R96, R82: FINAL of a READY context advances the counter by the buffer's length, sets the flags, compresses the zero-padded
buffer once, caches the first `nn` bytes of the serialized result, and puts them in DOUT and their number in DLEN. -/
def Obligations.FinalFinalizesTheContext : Prop :=
  ∀ (V : Variant) (e : Engine V) (b : Bus) (c : BitVec 4) (r : Ctx V), e.ctx[c.toNat]? = some r → r.st = .ready →
    let t := r.t + BitVec.ofNat (2 * V.w) r.buf.length
    let f1 : Word V := if r.ln = 1 then BitVec.allOnes V.w else 0
    let h := compress r.h (r.buf ++ List.replicate (V.bb - r.buf.length) 0) t (BitVec.allOnes V.w) f1
    let D := (serialize h).take r.nn.toNat
    ∃ dp, exec (.final c) ⟨V, e, b⟩ = .next ⟨V,
      { e with
        ctx := e.ctx.set c.toNat { r with st := .final, h := h, t := t, f0 := BitVec.allOnes V.w, f1 := f1, buf := [], dig := D }
        dp := dp
        dout := doutWords D
        status := { err := .ok, cstate := .final, dlen := BitVec.ofNat 8 D.length } }, b⟩

/-- R95, R105: FINAL of a FINAL context puts the cached digest in DOUT again and changes no context and no datapath register. -/
def Obligations.FinalOfFinalReturnsTheCachedDigest : Prop :=
  ∀ (V : Variant) (e : Engine V) (b : Bus) (c : BitVec 4) (r : Ctx V), e.ctx[c.toNat]? = some r → r.st = .final →
    exec (.final c) ⟨V, e, b⟩ = .next ⟨V,
      { e with
        dout := doutWords r.dig
        status := { err := .ok, cstate := .final, dlen := BitVec.ofNat 8 r.dig.length } }, b⟩

/-- R105, R31: the sixteen DOUT words of a digest of at most 64 bytes hold its bytes in order, and zeros past it. -/
def Obligations.DoutHoldsTheDigestThenZeros : Prop :=
  ∀ (d : List Byte) (k : Fin 16) (i : Nat), d.length ≤ 64 → i < 4 →
    (doutWords d)[k].extractLsb' (8 * i) 8 = d.getD (4 * k.val + i) 0

/-- R82: the digest bytes are the little-endian bytes of `h[0]`, `h[1]`, … in order. -/
def Obligations.SerializeIsLittleEndian : Prop :=
  ∀ (V : Variant) (h : Vector (Word V) 8), (serialize h).length = V.nnMax ∧
    ∀ (k : Fin 8) (i : Nat), i < V.wb → (serialize h).getD (k.val * V.wb + i) 0 = h[k].extractLsb' (8 * i) 8

/-- R95: after one FINAL a second FINAL of the same context changes nothing at all. -/
def Obligations.FinalIsIdempotent : Prop :=
  ∀ (c : BitVec 4) (s s' : State), exec (.final c) s = .next s' → exec (.final c) s' = .next s'

/-- R97, R106: CLONE copies every field of a source that is not EMPTY into the destination; an EMPTY source reports NOCTX and leaves the destination
as it was; a CLONE of a context onto itself changes no context. -/
def Obligations.CloneCopiesTheSource : Prop :=
  ∀ (V : Variant) (e : Engine V) (b : Bus) (d s : BitVec 4) (r : Ctx V), d.toNat < e.ctx.length → e.ctx[s.toNat]? = some r →
    exec (.clone d s) ⟨V, e, b⟩ = (if r.st = .empty
      then .next ⟨V, { e with status := { e.status with err := .noctx, cstate := .empty } }, b⟩
      else .next ⟨V, { e with ctx := e.ctx.set d.toNat r, status := { e.status with err := .ok, cstate := r.st } }, b⟩) ∧
    (d = s → e.ctx.set d.toNat r = e.ctx)

/-- R99: an UPDATE of no bytes on a READY context changes no context and no datapath register; on a FINAL context it still reports STATE. -/
def Obligations.UpdateOfNoBytesChangesNothing : Prop :=
  ∀ (V : Variant) (e : Engine V) (b : Bus) (c : BitVec 4) (r : Ctx V),
    e.ctx[c.toNat]? = some r → r.buf.length ≤ V.bb →
    (r.st = .ready → exec (.update 0 c) ⟨V, e, b⟩ =
      .next ⟨V, { e with status := { e.status with err := .ok, cstate := .ready } }, b⟩) ∧
    (r.st = .final → exec (.update 0 c) ⟨V, e, b⟩ =
      .next ⟨V, { e with status := { e.status with err := .state, cstate := .final } }, b⟩)

/-! ### Frames and whole-machine rules -/

/-- R122, R121, R25, R151: the frame of the commands. Whatever the outcome, a command changes no context but the one CTX names, no staging register
and nothing of the bus; DOUT and DLEN change in FINAL alone, the datapath in UPDATE and FINAL alone. -/
def Obligations.CommandFrame : Prop :=
  ∀ (k : Command) (V : Variant) (e e' : Engine V) (b b' : Bus), exec k.toInstr ⟨V, e, b⟩ = .next ⟨V, e', b'⟩ →
    b' = b ∧ e'.stage = e.stage ∧ e'.ctx.length = e.ctx.length ∧
    (∀ d : Nat, (match k with
        | .init c => d ≠ c.toNat
        | .update _ c => d ≠ c.toNat
        | .final c => d ≠ c.toNat
        | .clone c _ => d ≠ c.toNat
        | .nop => True
        | .illegal _ => True) → e'.ctx[d]? = e.ctx[d]?) ∧
    ((∀ c, k ≠ .final c) → e'.dout = e.dout ∧ e'.status.dlen = e.status.dlen) ∧
    ((∀ c, k ≠ .final c) → (∀ len c, k ≠ .update len c) → e'.dp = e.dp)

/-- R132, R86: errors are precise. A command that reports an error has written ERR and CSTATE only, but for an INIT that reports CONFIG, which
also leaves its context the EMPTY record. -/
def Obligations.ErrorsArePrecise : Prop :=
  ∀ (w : Word32) (V : Variant) (e e' : Engine V) (b b' : Bus), exec (.wrCmd w) ⟨V, e, b⟩ = .next ⟨V, e', b'⟩ →
    e'.status.err ≠ .ok →
    b' = b ∧ e'.status.dlen = e.status.dlen ∧
    (e' = { e with status := e'.status } ∨
      ∃ c, decodeCommand w = .init c ∧ e'.status.err = .config ∧
        e' = { e with ctx := e.ctx.set c.toNat (Ctx.emptyRecord V), status := e'.status })

/-- R133: the codes each command can report, ILLEGAL before every other when CTX is out of range. -/
def Obligations.ErrorCodesOfEachCommand : Prop :=
  ∀ (k : Command) (V : Variant) (e e' : Engine V) (b b' : Bus), exec k.toInstr ⟨V, e, b⟩ = .next ⟨V, e', b'⟩ →
    match k with
    | .nop => e'.status.err = .ok
    | .init c => if e.ctx.length ≤ c.toNat then e'.status.err = .illegal else e'.status.err ∈ [ErrCode.ok, .config]
    | .update _ c => if e.ctx.length ≤ c.toNat then e'.status.err = .illegal else e'.status.err ∈ [ErrCode.ok, .noctx, .state]
    | .final c => if e.ctx.length ≤ c.toNat then e'.status.err = .illegal else e'.status.err ∈ [ErrCode.ok, .noctx]
    | .clone c s => if e.ctx.length ≤ c.toNat ∨ e.ctx.length ≤ s.toNat then e'.status.err = .illegal
        else e'.status.err ∈ [ErrCode.ok, .noctx]
    | .illegal _ => e'.status.err = .illegal

/-- R18, R81: only INIT, FINAL and CLONE change a context's lifecycle state, each in the one way the rule gives. -/
def Obligations.LifecycleChangesOnlyByThreeCommands : Prop :=
  ∀ (k : Command) (V : Variant) (e e' : Engine V) (b b' : Bus) (d : BitVec 4) (r r' : Ctx V),
    exec k.toInstr ⟨V, e, b⟩ = .next ⟨V, e', b'⟩ →
    e.ctx[d.toNat]? = some r → e'.ctx[d.toNat]? = some r' → r'.st ≠ r.st →
    (k = .init d ∧ r'.st = if (snapshot e.stage).valid V then .ready else .empty) ∨
    (k = .final d ∧ r.st = .ready ∧ r'.st = .final) ∨
    (∃ s rs, k = .clone d s ∧ e.ctx[s.toNat]? = some rs ∧ r'.st = rs.st)

/-- R22: `nn` and `ln` change by INIT or CLONE alone, and the cached digest by these and by the first FINAL. -/
def Obligations.LatchedFieldsStay : Prop :=
  ∀ (k : Command) (V : Variant) (e e' : Engine V) (b b' : Bus) (d : BitVec 4) (r r' : Ctx V),
    exec k.toInstr ⟨V, e, b⟩ = .next ⟨V, e', b'⟩ →
    e.ctx[d.toNat]? = some r → e'.ctx[d.toNat]? = some r' → k ≠ .init d → (∀ s, k ≠ .clone d s) →
    r'.nn = r.nn ∧ r'.ln = r.ln ∧ (r'.dig ≠ r.dig → k = .final d ∧ r.st = .ready)

/-- R20, R23, R31, R6: every step from a state that meets the invariant leads to a state that meets it. That the round index is below `R` between commands
is the model's choice (notes/assumptions/2.md): the spec leaves it any value there. -/
def Obligations.StepKeepsTheInvariant : Prop :=
  ∀ s s' : State, s.Inv → step s = .next s' → s'.Inv

/-- The reset machine of either variant, with any legal number of contexts, meets the invariant. -/
def Obligations.ResetMeetsTheInvariant : Prop :=
  (∀ (V : Variant) (n : Nat), 1 ≤ n → n ≤ 16 → (State.resetOf V n).Inv) ∧ State.reset.Inv

/-- R158, R34: a machine whose pending accesses are all 32-bit and aligned never stops: every step goes on, and the rest of the bus still conforms. -/
def Obligations.ConformingHostIsNeverRefused : Prop :=
  ∀ s : State, s.conforming = true → ∃ s', step s = .next s' ∧ s'.conforming = true

/-! ### What is never read -/

/-- R14, R76: no instruction reads the datapath registers an earlier compression left: from states that differ in them alone, every instruction
leads to states that differ in them at most. -/
def Obligations.DatapathLeftoversAreNeverRead : Prop :=
  ∀ (i : Instr) (V : Variant) (e : Engine V) (dp : Datapath V) (b : Bus), ∃ (e' : Engine V) (dp1 dp2 : Datapath V) (b' : Bus),
    exec i ⟨V, e, b⟩ = .next ⟨V, { e' with dp := dp1 }, b'⟩ ∧
    exec i ⟨V, { e with dp := dp }, b⟩ = .next ⟨V, { e' with dp := dp2 }, b'⟩

/-- R32, R131: the fields of an EMPTY context are never read: with any other EMPTY record in its place, a command has the same outcome, and the
record is either overwritten alike or still in its place. -/
def Obligations.EmptyContextIsNeverRead : Prop :=
  ∀ (k : Command) (V : Variant) (e e1 e2 : Engine V) (b b1 b2 : Bus) (c : BitVec 4) (r1 r2 : Ctx V),
    c.toNat < e.ctx.length → r1.st = .empty → r2.st = .empty →
    exec k.toInstr ⟨V, { e with ctx := e.ctx.set c.toNat r1 }, b⟩ = .next ⟨V, e1, b1⟩ →
    exec k.toInstr ⟨V, { e with ctx := e.ctx.set c.toNat r2 }, b⟩ = .next ⟨V, e2, b2⟩ →
    e1.status = e2.status ∧ e1.dout = e2.dout ∧ e1.stage = e2.stage ∧ e1.dp = e2.dp ∧ b1 = b2 ∧
    (∀ d : Nat, d ≠ c.toNat → e1.ctx[d]? = e2.ctx[d]?) ∧
    (e1.ctx[c.toNat]? = e2.ctx[c.toNat]? ∨ (e1.ctx[c.toNat]? = some r1 ∧ e2.ctx[c.toNat]? = some r2))

/-- R160, R98, R17: contexts never interfere. What INIT, UPDATE and FINAL make of context `c`, and the code they report, is fixed by that context, the
staging registers and `NCTX`; what CLONE makes of it, by that context and the source. No other context, nor STATUS, DOUT or the datapath, matters. -/
def Obligations.ContextsNeverInterfere : Prop :=
  ∀ (k : Command) (c : BitVec 4) (V : Variant) (e1 e2 e1' e2' : Engine V) (b1 b2 b1' b2' : Bus),
    e1.stage = e2.stage → e1.ctx.length = e2.ctx.length → e1.ctx[c.toNat]? = e2.ctx[c.toNat]? →
    (match k with
      | .init d => d = c
      | .update _ d => d = c
      | .final d => d = c
      | .clone d s => d = c ∧ e1.ctx[s.toNat]? = e2.ctx[s.toNat]?
      | .nop => True
      | .illegal _ => True) →
    exec k.toInstr ⟨V, e1, b1⟩ = .next ⟨V, e1', b1'⟩ → exec k.toInstr ⟨V, e2, b2⟩ = .next ⟨V, e2', b2'⟩ →
    e1'.ctx[c.toNat]? = e2'.ctx[c.toNat]? ∧ e1'.status.err = e2'.status.err

/-- R160, R98: the interleaving of commands on different contexts is free: two INIT, UPDATE, FINAL or CLONE commands that write different contexts, where
a CLONE's source is not the context the other command writes, leave the same contexts in either order. -/
def Obligations.InterleavingOfContextsIsFree : Prop :=
  ∀ (k1 k2 : Command) (c1 c2 : BitVec 4) (V : Variant) (e e1 e2 e12 e21 : Engine V) (b b1 b2 b12 b21 : Bus), c1 ≠ c2 →
    (k1 = .init c1 ∨ (∃ len, k1 = .update len c1) ∨ k1 = .final c1 ∨ (∃ s, s ≠ c2 ∧ k1 = .clone c1 s)) →
    (k2 = .init c2 ∨ (∃ len, k2 = .update len c2) ∨ k2 = .final c2 ∨ (∃ s, s ≠ c1 ∧ k2 = .clone c2 s)) →
    exec k1.toInstr ⟨V, e, b⟩ = .next ⟨V, e1, b1⟩ → exec k2.toInstr ⟨V, e1, b1⟩ = .next ⟨V, e12, b12⟩ →
    exec k2.toInstr ⟨V, e, b⟩ = .next ⟨V, e2, b2⟩ → exec k1.toInstr ⟨V, e2, b2⟩ = .next ⟨V, e21, b21⟩ →
    e12.ctx = e21.ctx ∧ e12.stage = e21.stage

/-- R43, R104: UPDATE does not read the DIN bytes at positions `≥ LEN`. -/
def Obligations.UnusedDinBytesAreNotRead : Prop :=
  ∀ (V : Variant) (e : Engine V) (b : Bus) (len c : BitVec 4) (din : Vector Word32 2),
    (∀ p, p < len.toNat → (bankBytes din).getD p 0 = (bankBytes e.stage.din).getD p 0) →
    ∃ e' : Engine V, exec (.update len c) ⟨V, e, b⟩ = .next ⟨V, e', b⟩ ∧
      exec (.update len c) ⟨V, { e with stage := { e.stage with din := din } }, b⟩ =
        .next ⟨V, { e' with stage := { e'.stage with din := din } }, b⟩

/-- R52: INIT does not read the bank bytes at or past the length fields. -/
def Obligations.BankBytesPastTheLengthsAreNotRead : Prop :=
  ∀ (V : Variant) (e : Engine V) (b : Bus) (c : BitVec 4) (key : Vector Word32 16) (salt pers : Vector Word32 4),
    (∀ p, p < (e.stage.cfg[0].extractLsb' 8 8).toNat → (bankBytes key).getD p 0 = (bankBytes e.stage.key).getD p 0) →
    (∀ p, p < (e.stage.cfg[4].extractLsb' 16 8).toNat → (bankBytes salt).getD p 0 = (bankBytes e.stage.salt).getD p 0) →
    (∀ p, p < (e.stage.cfg[4].extractLsb' 24 8).toNat → (bankBytes pers).getD p 0 = (bankBytes e.stage.pers).getD p 0) →
    ∃ e' : Engine V, exec (.init c) ⟨V, e, b⟩ = .next ⟨V, e', b⟩ ∧
      exec (.init c) ⟨V, { e with stage := { e.stage with key := key, salt := salt, pers := pers } }, b⟩ =
        .next ⟨V, { e' with stage := { e'.stage with key := key, salt := salt, pers := pers } }, b⟩

/-! ### Compression and streaming -/

/-- R77, R75, R68, R73, R69: for the four words of each quadruple, G is the chain of eight sub-steps, and it leaves the other twelve words alone. Step `j` of
round `r` is G on quadruple `j` with the message words that entries `2j` and `2j + 1` of row `r mod 10` select. The two tables stand here in full. -/
def Obligations.MixerIsTheEightSubsteps : Prop :=
  ∀ (V : Variant) (v m : Vector (Word V) 16) (r : Nat) (j : Fin 8) (mx my : Word V),
    let Q : List Quad := [⟨0, 4, 8, 12⟩, ⟨1, 5, 9, 13⟩, ⟨2, 6, 10, 14⟩, ⟨3, 7, 11, 15⟩,
      ⟨0, 5, 10, 15⟩, ⟨1, 6, 11, 12⟩, ⟨2, 7, 8, 13⟩, ⟨3, 4, 9, 14⟩]
    let SIGMA : List (List (Fin 16)) := [
      [0, 1, 2, 3, 4, 5, 6, 7, 8, 9, 10, 11, 12, 13, 14, 15], [14, 10, 4, 8, 9, 15, 13, 6, 1, 12, 0, 2, 11, 7, 5, 3],
      [11, 8, 12, 0, 5, 2, 15, 13, 10, 14, 3, 6, 7, 1, 9, 4], [7, 9, 3, 1, 13, 12, 11, 14, 2, 6, 5, 10, 4, 0, 15, 8],
      [9, 0, 5, 7, 2, 4, 10, 15, 14, 1, 11, 12, 6, 8, 3, 13], [2, 12, 6, 10, 0, 11, 8, 3, 4, 13, 7, 5, 15, 14, 1, 9],
      [12, 5, 1, 15, 14, 13, 4, 10, 0, 7, 6, 3, 9, 2, 8, 11], [13, 11, 7, 14, 12, 1, 3, 9, 5, 0, 15, 4, 8, 6, 2, 10],
      [6, 15, 14, 9, 11, 3, 0, 8, 12, 2, 13, 7, 1, 4, 10, 5], [10, 2, 8, 4, 7, 6, 1, 5, 15, 11, 9, 14, 3, 12, 13, 0]]
    let q := Q.getD j.val ⟨0, 0, 0, 0⟩
    let s := SIGMA.getD (r % 10) []
    let rot (x : Word V) (n : Nat) : Word V := (x >>> n) ||| (x <<< (V.w - n))
    let R := if V = .B then (32, 24, 16, 63) else (16, 12, 8, 7)
    let a1 := v[q.a] + v[q.b] + mx
    let d1 := rot (v[q.d] ^^^ a1) R.1
    let c1 := v[q.c] + d1
    let b1 := rot (v[q.b] ^^^ c1) R.2.1
    let a2 := a1 + b1 + my
    let d2 := rot (d1 ^^^ a2) R.2.2.1
    let c2 := c1 + d2
    let b2 := rot (b1 ^^^ c2) R.2.2.2
    let v' := mixG v q mx my
    v'[q.a] = a2 ∧ v'[q.b] = b2 ∧ v'[q.c] = c2 ∧ v'[q.d] = d2 ∧
    (∀ i : Fin 16, i ≠ q.a → i ≠ q.b → i ≠ q.c → i ≠ q.d → v'[i] = v[i]) ∧
    mixAt m r j v = mixG v q m[s.getD (2 * j.val) 0] m[s.getD (2 * j.val + 1) 0]

/-- R71: the four G of one half-round can be done in any order. -/
def Obligations.HalfRoundOrderIsFree : Prop :=
  ∀ (V : Variant) (m v : Vector (Word V) 16) (r : Nat) (half order : List (Fin 8)),
    half = [0, 1, 2, 3] ∨ half = [4, 5, 6, 7] → order.Perm half →
    order.foldl (fun v j => mixAt m r j v) v = half.foldl (fun v j => mixAt m r j v) v

/-- R70, R66, R69, R76, R78: the scheduler. Before MIX step `n < 8·R` it stands at round `n / 8`, step `n mod 8`, and that MIX step is step `n mod 8` of round
`n / 8` on the working vector; after exactly `8·R` it is in FOLD; and what FOLD makes of the working vector, `h[i] ^ v[i] ^ v[i+8]`, is the compression
function of nested rounds. -/
def Obligations.SchedulerComputesTheRounds : Prop :=
  ∀ (V : Variant) (h : Vector (Word V) 8) (block : List Byte) (t : BitVec (2 * V.w)) (f0 f1 : Word V),
    let at_ (n : Nat) : Datapath V := Datapath.mixSteps n (Datapath.load h block t f0 f1)
    let last := at_ (8 * V.rounds)
    (∀ n, n < 8 * V.rounds → (at_ n).phase = .mix ∧ (at_ n).r = n / 8 ∧ (at_ n).j.val = n % 8 ∧
      (at_ (n + 1)).m = (at_ n).m ∧ (at_ (n + 1)).v = mixAt (at_ n).m (n / 8) (at_ n).j (at_ n).v) ∧
    last.phase = .fold ∧ foldOut h last.v = compress h block t f0 f1 ∧
    ∀ i : Fin 8, (compress h block t f0 f1)[i] = h[i] ^^^ last.v[i.val] ^^^ last.v[i.val + 8]

/-- R64, R65, R5: LOAD parses the whole block as sixteen little-endian words, and initializes the working vector from `h`, the IV, the counter and the flags. The
IV stands here in full: its S words are the high halves of its B words. -/
def Obligations.WorkingVectorInitialization : Prop :=
  ∀ (V : Variant) (h : Vector (Word V) 8) (block : List Byte) (t : BitVec (2 * V.w)) (f0 f1 : Word V),
    let IV (i : Nat) : Word V := BitVec.ofNat V.w
      (([0x6a09e667f3bcc908, 0xbb67ae8584caa73b, 0x3c6ef372fe94f82b, 0xa54ff53a5f1d36f1,
        0x510e527fade682d1, 0x9b05688c2b3e6c1f, 0x1f83d9abfb41bd6b, 0x5be0cd19137e2179] : List Nat).getD i 0 / 2 ^ (64 - V.w))
    let dp := Datapath.load h block t f0 f1
    (∀ i : Fin 8, (iv V)[i] = IV i.val) ∧ (∀ i : Fin 8, dp.v[i.val] = h[i]) ∧ (∀ i : Fin 4, dp.v[i.val + 8] = IV i.val) ∧
    dp.v[12] = BitVec.ofNat V.w t.toNat ^^^ IV 4 ∧ dp.v[13] = BitVec.ofNat V.w (t.toNat / 2 ^ V.w) ^^^ IV 5 ∧
    dp.v[14] = f0 ^^^ IV 6 ∧ dp.v[15] = f1 ^^^ IV 7 ∧
    16 * V.wb = V.bb ∧ ∀ (k : Fin 16) (i : Nat), i < V.wb → dp.m[k].extractLsb' (8 * i) 8 = block.getD (k.val * V.wb + i) 0

/-- R88, R19: the counter counts modulo `2^(2w)`, and a carry out of `t0` goes into `t1`. -/
def Obligations.CounterAdvancesWithCarry : Prop :=
  ∀ (V : Variant) (c : Ctx V) (n : Nat),
    let c' := advance n c
    (counterHigh c'.t).toNat * 2 ^ V.w + (counterLow c'.t).toNat =
      ((counterHigh c.t).toNat * 2 ^ V.w + (counterLow c.t).toNat + n) % 2 ^ (2 * V.w) ∧
    c'.h = c.h ∧ c'.buf = c.buf ∧ c'.f0 = c.f0 ∧ c'.f1 = c.f1 ∧ c'.st = c.st ∧ c'.nn = c.nn ∧ c'.ln = c.ln ∧ c'.dig = c.dig

/-- R91: chunking independence. Absorbing a byte string in pieces, however it is split, leaves what absorbing it at once leaves. -/
def Obligations.ChunkingIndependence : Prop :=
  ∀ (V : Variant) (x : Work V) (pieces : List (List Byte)), x.c.buf.length ≤ V.bb →
    pieces.foldl absorb x = absorb x pieces.flatten

/-- R91, R92: a fresh context that has absorbed `n` bytes in all has compressed the first `⌈n/bb⌉ − 1` blocks in order and holds the rest. -/
def Obligations.AbsorbedStreamPosition : Prop :=
  ∀ (V : Variant) (x : Work V) (data : List Byte), x.c.buf = [] → x.c.t = 0 →
    let k := (data.length + V.bb - 1) / V.bb - 1
    let y := absorb x data
    y.c.h = chainBlocks V x.c.h data k ∧ y.c.buf = data.drop (k * V.bb) ∧ y.c.t = BitVec.ofNat (2 * V.w) (k * V.bb) ∧
    y.c.f0 = x.c.f0 ∧ y.c.f1 = x.c.f1 ∧ y.c.st = x.c.st ∧ y.c.nn = x.c.nn ∧ y.c.ln = x.c.ln ∧ y.c.dig = x.c.dig

/-- R84, R91, R93: the digest of a session. A context constructed from a legal configuration, fed a message in any pieces and finalized, caches the hash of the
whole message, which is `nn` bytes long. -/
def Obligations.SessionDigestIsTheHashOfTheMessage : Prop :=
  ∀ (V : Variant) (g : Staging) (dp : Datapath V) (pieces : List (List Byte)), (snapshot g).valid V = true →
    let y := finalize (pieces.foldl absorb (construct (snapshot g) dp))
    y.c.st = .final ∧ y.c.dig = hashOf V (snapshot g) pieces.flatten ∧ y.c.dig.length = (g.cfg[0].extractLsb' 0 8).toNat
end

