-- ==== Sys2Proof/Laws/Bytes.lean ====
section
/-! SUPPORT. The lemmas of the byte sequences: lengths, and the little-endian readings being inverse to each other. -/

namespace Sys2Proof

@[simp] theorem length_toLE (n x : Nat) : (toLE n x).length = n := by
  induction n generalizing x with
  | zero => rfl
  | succ n ih => simp [toLE, ih]

@[simp] theorem length_zeros (n : Nat) : (zeros n).length = n := by simp [zeros]

@[simp] theorem length_regBytes (x : Word32) : (regBytes x).length = 4 := by simp [regBytes]

@[simp] theorem length_bankBytes {n : Nat} (bank : Vector Word32 n) : (bankBytes bank).length = 4 * n := by
  simp [bankBytes, List.length_flatMap, Nat.mul_comm]

theorem leNat_lt (bs : List Byte) : leNat bs < 256 ^ bs.length := by
  induction bs with
  | nil => simp [leNat]
  | cons b bs ih =>
    have hb := b.isLt
    simp only [leNat, List.length_cons, pow_succ]
    omega

theorem leNat_toLE (n x : Nat) : leNat (toLE n x) = x % 256 ^ n := by
  induction n generalizing x with
  | zero => simp [toLE, leNat, Nat.mod_one]
  | succ n ih =>
    have h8 : (2 : Nat) ^ 8 = 256 := rfl
    simp only [toLE, leNat, ih, BitVec.toNat_ofNat, h8]
    rw [Nat.pow_succ, Nat.mul_comm (256 ^ n) 256, Nat.mod_mul]

theorem toLE_leNat (bs : List Byte) : toLE bs.length (leNat bs) = bs := by
  induction bs with
  | nil => rfl
  | cons b bs ih =>
    have hb := b.isLt
    have h1 : BitVec.ofNat 8 (b.toNat + 256 * leNat bs) = b := by
      apply BitVec.eq_of_toNat_eq
      simp only [BitVec.toNat_ofNat]
      omega
    have h2 : (b.toNat + 256 * leNat bs) / 256 = leNat bs := by omega
    simp only [List.length_cons, toLE, leNat, h1, h2, ih]

/-- Byte `i` of the little-endian bytes of `x` is `(x >> 8i) mod 256` (R9). -/
theorem getElem?_toLE (n x i : Nat) (h : i < n) : (toLE n x)[i]? = some (BitVec.ofNat 8 (x / 256 ^ i)) := by
  induction n generalizing x i with
  | zero => omega
  | succ n ih =>
    cases i with
    | zero => simp [toLE]
    | succ i =>
      simp only [toLE, List.getElem?_cons_succ]
      rw [ih (x / 256) i (by omega), Nat.div_div_eq_div_mul, Nat.pow_succ, Nat.mul_comm 256]

theorem leNat_append (xs ys : List Byte) : leNat (xs ++ ys) = leNat xs + 256 ^ xs.length * leNat ys := by
  induction xs with
  | nil => simp [leNat]
  | cons b xs ih => simp only [List.cons_append, leNat, ih, List.length_cons, pow_succ]; ring

theorem length_slice (bs : List Byte) (i j : Nat) (hj : j ≤ bs.length) : (slice bs i j).length = j - i := by
  simp only [slice, List.length_take, List.length_drop]
  omega

theorem getElem?_slice (bs : List Byte) (i j k : Nat) (h : k < j - i) : (slice bs i j)[k]? = bs[i + k]? := by
  simp [slice, h]

/-- Byte `i` of piece `k`, when every piece has `n` bytes. -/
theorem getElem?_flatMap_const {α : Type} (f : α → List Byte) (n : Nat) (hf : ∀ a, (f a).length = n) (l : List α) (k i : Nat)
    (hi : i < n) : (l.flatMap f)[k * n + i]? = (l[k]?).bind fun a => (f a)[i]? := by
  induction l generalizing k with
  | nil => simp
  | cons a l ih =>
    rw [List.flatMap_cons, List.getElem?_append, hf]
    cases k with
    | zero => simp [hi]
    | succ k =>
      rw [if_neg (by rw [Nat.succ_mul]; omega), show (k + 1) * n + i - n = k * n + i by rw [Nat.succ_mul]; omega, ih]
      simp

/-- Byte `i` of a register is its bits `[8i+7:8i]` (R33). -/
theorem getElem?_regBytes (x : Word32) (i : Nat) (hi : i < 4) : (regBytes x)[i]? = some (x.extractLsb' (8 * i) 8) := by
  rw [regBytes, getElem?_toLE _ _ _ hi]
  congr 1
  apply BitVec.eq_of_toNat_eq
  simp [Nat.shiftRight_eq_div_pow, Nat.pow_mul]

/-- Byte `4k+i` of a bank is byte `i` of its register `k` (R30). -/
theorem getD_bankBytes {n : Nat} (bank : Vector Word32 n) (k i : Nat) (hk : k < n) (hi : i < 4) :
    (bankBytes bank).getD (4 * k + i) 0 = bank[k].extractLsb' (8 * i) 8 := by
  rw [List.getD_eq_getElem?_getD, Nat.mul_comm 4 k, bankBytes, getElem?_flatMap_const _ 4 length_regBytes _ _ _ hi]
  simp [hk, getElem?_regBytes _ _ hi]

/-- Byte `i` of a word read little-endian is byte `i` of the sequence, or 0 past its end (R9, R33). -/
theorem leNat_byte (w : Nat) (bs : List Byte) (i : Nat) (h : 8 * (i + 1) ≤ w) :
    (BitVec.ofNat w (leNat bs)).extractLsb' (8 * i) 8 = bs.getD i 0 := by
  apply BitVec.eq_of_getLsbD_eq
  intro b hb
  rw [BitVec.getLsbD_extractLsb', BitVec.getLsbD_ofNat]
  simp only [hb, decide_true, Bool.true_and, show 8 * i + b < w by omega]
  clear h
  induction bs generalizing i with
  | nil => simp [leNat]
  | cons a l ih =>
    cases i with
    | zero =>
      rw [leNat, show 256 * leNat l = 2 ^ 8 * leNat l by norm_num, Nat.add_comm]
      simp only [Nat.mul_zero, Nat.zero_add, List.getD_cons_zero]
      rw [Nat.testBit_two_pow_mul_add _ a.isLt]
      simp [hb, BitVec.testBit_toNat]
    | succ i =>
      have := ih i
      rw [leNat, show 256 * leNat l = 2 ^ 8 * leNat l by norm_num, Nat.add_comm, Nat.testBit_two_pow_mul_add _ a.isLt,
        if_neg (by omega), show 8 * (i + 1) + b - 8 = 8 * i + b by omega, this]
      simp

end Sys2Proof
end

