-- ==== Sys2Proof/Laws/State.lean ====
section
/-! SUPPORT. One lemma per field per update, true by rfl: no later proof unfolds a record update. -/

namespace Sys2Proof.Machine

variable {V : Variant} (e : Engine V) (c : BitVec 4) (x : Work V) (r : Ctx V) (err : ErrCode) (cs : Lifecycle) (d : List Byte)

@[simp] theorem Engine.putWork_ctx : (e.putWork c x).ctx = e.ctx.set c.toNat x.c := rfl
@[simp] theorem Engine.putWork_dp : (e.putWork c x).dp = x.dp := rfl
@[simp] theorem Engine.putWork_status : (e.putWork c x).status = e.status := rfl
@[simp] theorem Engine.putWork_stage : (e.putWork c x).stage = e.stage := rfl
@[simp] theorem Engine.putWork_dout : (e.putWork c x).dout = e.dout := rfl

@[simp] theorem Engine.putCtx_ctx : (e.putCtx c r).ctx = e.ctx.set c.toNat r := rfl
@[simp] theorem Engine.putCtx_dp : (e.putCtx c r).dp = e.dp := rfl
@[simp] theorem Engine.putCtx_status : (e.putCtx c r).status = e.status := rfl
@[simp] theorem Engine.putCtx_stage : (e.putCtx c r).stage = e.stage := rfl
@[simp] theorem Engine.putCtx_dout : (e.putCtx c r).dout = e.dout := rfl

@[simp] theorem Status.put_err (st : Status) : (st.put err cs).err = err := rfl
@[simp] theorem Status.put_cstate (st : Status) : (st.put err cs).cstate = cs := rfl
@[simp] theorem Status.put_dlen (st : Status) : (st.put err cs).dlen = st.dlen := rfl
@[simp] theorem Status.putErr_err (st : Status) : (st.putErr err).err = err := rfl
@[simp] theorem Status.putErr_cstate (st : Status) : (st.putErr err).cstate = st.cstate := rfl
@[simp] theorem Status.putErr_dlen (st : Status) : (st.putErr err).dlen = st.dlen := rfl

@[simp] theorem Engine.setStatus_ctx : (e.setStatus err cs).ctx = e.ctx := rfl
@[simp] theorem Engine.setStatus_dp : (e.setStatus err cs).dp = e.dp := rfl
@[simp] theorem Engine.setStatus_status : (e.setStatus err cs).status = e.status.put err cs := rfl
@[simp] theorem Engine.setStatus_stage : (e.setStatus err cs).stage = e.stage := rfl
@[simp] theorem Engine.setStatus_dout : (e.setStatus err cs).dout = e.dout := rfl

@[simp] theorem Engine.raise_ctx : (e.raise err cs).ctx = e.ctx := rfl
@[simp] theorem Engine.raise_dp : (e.raise err cs).dp = e.dp := rfl
@[simp] theorem Engine.raise_status : (e.raise err cs).status = e.status.put err cs := rfl
@[simp] theorem Engine.raise_stage : (e.raise err cs).stage = e.stage := rfl
@[simp] theorem Engine.raise_dout : (e.raise err cs).dout = e.dout := rfl

@[simp] theorem Engine.raiseIllegal_ctx : e.raiseIllegal.ctx = e.ctx := rfl
@[simp] theorem Engine.raiseIllegal_dp : e.raiseIllegal.dp = e.dp := rfl
@[simp] theorem Engine.raiseIllegal_status : e.raiseIllegal.status = e.status.putErr .illegal := rfl
@[simp] theorem Engine.raiseIllegal_stage : e.raiseIllegal.stage = e.stage := rfl
@[simp] theorem Engine.raiseIllegal_dout : e.raiseIllegal.dout = e.dout := rfl

@[simp] theorem Engine.putDigest_ctx : (e.putDigest d).ctx = e.ctx := rfl
@[simp] theorem Engine.putDigest_dp : (e.putDigest d).dp = e.dp := rfl
@[simp] theorem Engine.putDigest_stage : (e.putDigest d).stage = e.stage := rfl
@[simp] theorem Engine.putDigest_dout : (e.putDigest d).dout = doutWords d := rfl
@[simp] theorem Engine.putDigest_err : (e.putDigest d).status.err = e.status.err := rfl
@[simp] theorem Engine.putDigest_cstate : (e.putDigest d).status.cstate = e.status.cstate := rfl
@[simp] theorem Engine.putDigest_dlen : (e.putDigest d).status.dlen = BitVec.ofNat 8 d.length := rfl

variable (b : Bus) (f : Engine V → Engine V) (w : Word32) (rest : List HostEvent)

@[simp] theorem State.onEngine_mk : State.onEngine ⟨V, e, b⟩ f = ⟨V, f e, b⟩ := rfl
@[simp] theorem State.respond_mk : State.respond ⟨V, e, b⟩ w = ⟨V, e, ⟨b.pending, b.reads ++ [w]⟩⟩ := rfl
@[simp] theorem State.pop_mk : State.pop ⟨V, e, b⟩ rest = ⟨V, e, ⟨rest, b.reads⟩⟩ := rfl
@[simp] theorem State.resetEngine_mk : State.resetEngine ⟨V, e, b⟩ = ⟨V, Engine.reset V e.ctx.length, b⟩ := rfl

/-- Writing a context back where it stands changes nothing. -/
theorem set_getElem?_self {α : Type} {l : List α} {i : Nat} {a : α} (h : l[i]? = some a) : l.set i a = l := by
  apply List.ext_getElem?
  intro j
  by_cases hij : i = j
  · subst hij
    rw [h, List.getElem?_set_self (List.getElem?_eq_some_iff.mp h).1]
  · rw [List.getElem?_set_ne hij]

@[simp] theorem advance_t (n : Nat) : (advance n r).t = r.t + BitVec.ofNat (2 * V.w) n := rfl
@[simp] theorem advance_buf (n : Nat) : (advance n r).buf = r.buf := rfl
@[simp] theorem advance_h (n : Nat) : (advance n r).h = r.h := rfl

end Sys2Proof.Machine
end

