-- ==== Sys2Proof/Laws/Hasher.lean ====
section
/-! SUPPORT. What the streaming operations can do: the loop of absorb compresses nothing, or one oldest block and goes on; enough turns
are enough; the fields a compression leaves alone. -/

namespace Sys2Proof.Machine

variable {V : Variant}

theorem bb_pos : 0 < V.bb := by cases V <;> decide

/-- Fields that a compression of the oldest block keeps (R89). -/
@[simp] theorem compressOldest_buf (x : Work V) : (compressOldest x).c.buf = x.c.buf.drop V.bb := rfl
@[simp] theorem compressOldest_t (x : Work V) : (compressOldest x).c.t = x.c.t + BitVec.ofNat (2 * V.w) V.bb := rfl
@[simp] theorem compressOldest_st (x : Work V) : (compressOldest x).c.st = x.c.st := rfl
@[simp] theorem compressOldest_f0 (x : Work V) : (compressOldest x).c.f0 = x.c.f0 := rfl
@[simp] theorem compressOldest_f1 (x : Work V) : (compressOldest x).c.f1 = x.c.f1 := rfl
@[simp] theorem compressOldest_nn (x : Work V) : (compressOldest x).c.nn = x.c.nn := rfl
@[simp] theorem compressOldest_ln (x : Work V) : (compressOldest x).c.ln = x.c.ln := rfl
@[simp] theorem compressOldest_dig (x : Work V) : (compressOldest x).c.dig = x.c.dig := rfl

theorem drain_of_le (n : Nat) (x : Work V) (h : x.c.buf.length ≤ V.bb) : drain n x = x := by
  cases n with
  | zero => rfl
  | succ n => simp [drain, Nat.not_lt.mpr h]

theorem drain_succ_of_lt (n : Nat) (x : Work V) (h : V.bb < x.c.buf.length) :
    drain (n + 1) x = drain n (compressOldest x) := by simp [drain, h]

/-- Any two numbers of turns that are at least the buffer's length do the same. -/
theorem drain_enough (n m : Nat) (x : Work V) (hn : x.c.buf.length ≤ n) (hm : x.c.buf.length ≤ m) :
    drain n x = drain m x := by
  have hb := bb_pos (V := V)
  induction n generalizing m x with
  | zero => rw [drain_of_le 0 x (by omega), drain_of_le m x (by omega)]
  | succ n ih =>
    by_cases h : V.bb < x.c.buf.length
    · obtain ⟨m, rfl⟩ : ∃ k, m = k + 1 := ⟨m - 1, by omega⟩
      rw [drain_succ_of_lt n x h, drain_succ_of_lt m x h]
      exact ih m _ (by simp; omega) (by simp; omega)
    · rw [drain_of_le _ x (by omega), drain_of_le _ x (by omega)]

/-- What the loop keeps: every field but `h`, `t`, `buf` (R89). -/
theorem drain_keeps (n : Nat) (x : Work V) :
    (drain n x).c.st = x.c.st ∧ (drain n x).c.f0 = x.c.f0 ∧ (drain n x).c.f1 = x.c.f1 ∧ (drain n x).c.nn = x.c.nn ∧
    (drain n x).c.ln = x.c.ln ∧ (drain n x).c.dig = x.c.dig := by
  induction n generalizing x with
  | zero => simp [drain]
  | succ n ih =>
    by_cases h : V.bb < x.c.buf.length
    · rw [drain_succ_of_lt n x h]; simpa using ih (compressOldest x)
    · rw [drain_of_le _ x (by omega)]; simp

/-- The loop ends with at most one block in the buffer (10_state.md R21). -/
theorem drain_buf_le (n : Nat) (x : Work V) (hn : x.c.buf.length ≤ n) : (drain n x).c.buf.length ≤ V.bb := by
  have hb := bb_pos (V := V)
  induction n generalizing x with
  | zero => rw [drain_of_le 0 x (by omega)]; omega
  | succ n ih =>
    by_cases h : V.bb < x.c.buf.length
    · rw [drain_succ_of_lt n x h]; exact ih _ (by simp; omega)
    · rw [drain_of_le _ x (by omega)]; omega

/-- Bytes that come after a whole block do not change its compression. -/
theorem compressOldest_append (x : Work V) (d : List Byte) (h : V.bb ≤ x.c.buf.length) :
    compressOldest ⟨{ x.c with buf := x.c.buf ++ d }, x.dp⟩ =
      ⟨{ (compressOldest x).c with buf := (compressOldest x).c.buf ++ d }, (compressOldest x).dp⟩ := by
  simp only [compressOldest, List.take_append_of_le_length h, List.drop_append_of_le_length h]
  rfl

/-- The loop on a longer buffer is the loop, then absorbing the rest. -/
theorem drain_append (n : Nat) (x : Work V) (d : List Byte) (hn : (x.c.buf ++ d).length ≤ n) :
    drain n ⟨{ x.c with buf := x.c.buf ++ d }, x.dp⟩ = absorb (drain n x) d := by
  have hb := bb_pos (V := V)
  rw [List.length_append] at hn
  induction n generalizing x with
  | zero =>
    rw [drain_of_le 0 x (by omega)]
    exact drain_enough _ _ _ (by simp only [List.length_append]; omega) (by simp)
  | succ n ih =>
    by_cases h : V.bb < x.c.buf.length
    · rw [drain_succ_of_lt n x h, drain_succ_of_lt n _ (by simp; omega), compressOldest_append x d (by omega),
        ih (compressOldest x) (by simp; omega)]
    · rw [drain_of_le _ x (by omega)]
      exact drain_enough _ _ _ (by simp only [List.length_append]; omega) (by simp)

/-- absorb of bytes that leave at most a block in the buffer appends them and compresses nothing (R89, R99). -/
theorem absorb_of_le (x : Work V) (d : List Byte) (h : (x.c.buf ++ d).length ≤ V.bb) :
    absorb x d = ⟨{ x.c with buf := x.c.buf ++ d }, x.dp⟩ := drain_of_le _ _ h

/-- absorb of bytes that bring the buffer over one block, but not over two, compresses once (R89, R100). -/
theorem absorb_of_gt (x : Work V) (d : List Byte) (h : V.bb < (x.c.buf ++ d).length)
    (h2 : (x.c.buf ++ d).length ≤ 2 * V.bb) :
    absorb x d = compressOldest ⟨{ x.c with buf := x.c.buf ++ d }, x.dp⟩ := by
  obtain ⟨n, hn⟩ : ∃ n, (x.c.buf ++ d).length = n + 1 := ⟨(x.c.buf ++ d).length - 1, by omega⟩
  rw [absorb, hn, drain_succ_of_lt _ _ h, drain_of_le]
  simp at h2 ⊢; omega

theorem absorb_buf_le (x : Work V) (d : List Byte) : (absorb x d).c.buf.length ≤ V.bb := drain_buf_le _ _ (Nat.le_refl _)

theorem absorb_keeps (x : Work V) (d : List Byte) :
    (absorb x d).c.st = x.c.st ∧ (absorb x d).c.f0 = x.c.f0 ∧ (absorb x d).c.f1 = x.c.f1 ∧ (absorb x d).c.nn = x.c.nn ∧
    (absorb x d).c.ln = x.c.ln ∧ (absorb x d).c.dig = x.c.dig := drain_keeps _ _

@[simp] theorem finalizeReady_st (c : Ctx V) : (finalizeReady c).c.st = .final := rfl
@[simp] theorem finalizeReady_buf (c : Ctx V) : (finalizeReady c).c.buf = [] := rfl
@[simp] theorem finalizeReady_nn (c : Ctx V) : (finalizeReady c).c.nn = c.nn := rfl
@[simp] theorem finalizeReady_ln (c : Ctx V) : (finalizeReady c).c.ln = c.ln := rfl

theorem length_serialize (h : Vector (Word V) 8) : (serialize h).length = V.nnMax := by
  cases V <;> simp [serialize, List.length_flatMap, Variant.wb, Variant.nnMax]

/-- The digest of a context whose `nn` is legal has `nn` bytes (10_state.md R23.4). -/
theorem finalizeReady_dig_length (c : Ctx V) (h : c.nn.toNat ≤ V.nnMax) : (finalizeReady c).c.dig.length = c.nn.toNat := by
  simp [finalizeReady, compressInto, advance, length_serialize, h]

end Sys2Proof.Machine
end

