-- ==== Sys2Proof/Laws/Commands.lean ====
section
/-! SUPPORT. What each instruction can do, said once: a command is one function on the engine, by cases on the context it names; a read
returns one word; a write stores one staging register. -/

namespace Sys2Proof.Machine

variable {V : Variant}

/-- The effect of a command on the engine. -/
def Engine.run : Command → Engine V → Engine V
  | .nop, e => e.nop
  | .init c, e => e.init c
  | .update len c, e => e.update len c
  | .final c, e => e.final c
  | .clone d s, e => e.clone d s
  | .illegal _, e => e.raiseIllegal

theorem exec_command (k : Command) (e : Engine V) (b : Bus) :
    exec k.toInstr ⟨V, e, b⟩ = .next ⟨V, e.run k, b⟩ := by cases k <;> rfl

theorem exec_wrCmd (w : Word32) (s : State) : exec (.wrCmd w) s = exec (decodeCommand w).toInstr s := by
  show execWrCmd w s = _
  unfold execWrCmd
  cases decodeCommand w <;> rfl

theorem exec_command_inv {k : Command} {e e' : Engine V} {b b' : Bus}
    (h : exec k.toInstr ⟨V, e, b⟩ = .next ⟨V, e', b'⟩) : e' = e.run k ∧ b' = b := by
  rw [exec_command] at h
  simp only [Host.Outcome.next.injEq, State.mk.injEq, heq_eq_eq, true_and] at h
  exact ⟨h.1.symm, h.2.symm⟩

theorem Engine.withCtx_some {e : Engine V} {c : BitVec 4} {r : Ctx V} (f : Ctx V → Engine V)
    (h : e.ctx[c.toNat]? = some r) : e.withCtx c f = f r := by simp [Engine.withCtx, h]

theorem Engine.withCtx_none {e : Engine V} {c : BitVec 4} (f : Ctx V → Engine V)
    (h : e.ctx.length ≤ c.toNat) : e.withCtx c f = e.raiseIllegal := by
  simp [Engine.withCtx, List.getElem?_eq_none h]

/-- The outcomes of INIT (R103). -/
theorem Engine.init_cases (c : BitVec 4) (e : Engine V) :
    (e.ctx.length ≤ c.toNat ∧ e.init c = e.raiseIllegal) ∨
    (c.toNat < e.ctx.length ∧ (snapshot e.stage).valid V = true ∧
      e.init c = (e.putWork c (construct (snapshot e.stage) e.dp)).setStatus .ok .ready) ∨
    (c.toNat < e.ctx.length ∧ (snapshot e.stage).valid V = false ∧
      e.init c = (e.putCtx c (Ctx.emptyRecord V)).raise .config .empty) := by
  by_cases h : e.ctx.length ≤ c.toNat
  · exact .inl ⟨h, Engine.withCtx_none _ h⟩
  · have hc : e.ctx[c.toNat]? = some (e.ctx[c.toNat]'(by omega)) := List.getElem?_eq_getElem (by omega)
    right
    unfold Engine.init
    rw [Engine.withCtx_some _ hc]
    cases hv : (snapshot e.stage).valid V
    · exact .inr ⟨by omega, rfl, by simp [hv]⟩
    · exact .inl ⟨by omega, rfl, by simp [hv]⟩

/-- The outcomes of UPDATE (R104). -/
theorem Engine.update_cases (len c : BitVec 4) (e : Engine V) :
    (e.ctx.length ≤ c.toNat ∧ e.update len c = e.raiseIllegal) ∨
    ∃ r, e.ctx[c.toNat]? = some r ∧
      ((r.st = .empty ∧ e.update len c = e.raise .noctx .empty) ∨
       (r.st = .final ∧ e.update len c = e.raise .state .final) ∨
       (r.st = .ready ∧
        e.update len c = (e.putWork c (absorb ⟨r, e.dp⟩ (updateData e.stage len))).setStatus .ok .ready)) := by
  by_cases h : e.ctx.length ≤ c.toNat
  · exact .inl ⟨h, Engine.withCtx_none _ h⟩
  · have hc : e.ctx[c.toNat]? = some (e.ctx[c.toNat]'(by omega)) := List.getElem?_eq_getElem (by omega)
    refine .inr ⟨_, hc, ?_⟩
    unfold Engine.update
    rw [Engine.withCtx_some _ hc]
    cases hs : (e.ctx[c.toNat]'(by omega)).st
    · exact .inl ⟨rfl, by simp⟩
    · exact .inr (.inr ⟨rfl, by simp⟩)
    · exact .inr (.inl ⟨rfl, by simp⟩)

/-- The outcomes of FINAL (R105). -/
theorem Engine.final_cases (c : BitVec 4) (e : Engine V) :
    (e.ctx.length ≤ c.toNat ∧ e.final c = e.raiseIllegal) ∨
    ∃ r, e.ctx[c.toNat]? = some r ∧
      ((r.st = .empty ∧ e.final c = e.raise .noctx .empty) ∨
       (r.st = .ready ∧ e.final c =
          ((e.putWork c (finalizeReady r)).putDigest (finalizeReady r).c.dig).setStatus .ok .final) ∨
       (r.st = .final ∧ e.final c = (e.putDigest r.dig).setStatus .ok .final)) := by
  by_cases h : e.ctx.length ≤ c.toNat
  · exact .inl ⟨h, Engine.withCtx_none _ h⟩
  · have hc : e.ctx[c.toNat]? = some (e.ctx[c.toNat]'(by omega)) := List.getElem?_eq_getElem (by omega)
    refine .inr ⟨_, hc, ?_⟩
    unfold Engine.final
    rw [Engine.withCtx_some _ hc]
    cases hs : (e.ctx[c.toNat]'(by omega)).st
    · exact .inl ⟨rfl, by simp⟩
    · exact .inr (.inl ⟨rfl, by simp [hs, finalize]⟩)
    · refine .inr (.inr ⟨rfl, ?_⟩)
      simp [hs, finalize, Engine.putWork, Engine.putDigest, Engine.setStatus, Status.put]

/-- The outcomes of CLONE (R106). -/
theorem Engine.clone_cases (d s : BitVec 4) (e : Engine V) :
    ((e.ctx.length ≤ d.toNat ∨ e.ctx.length ≤ s.toNat) ∧ e.clone d s = e.raiseIllegal) ∨
    (d.toNat < e.ctx.length ∧ ∃ r, e.ctx[s.toNat]? = some r ∧
      ((r.st = .empty ∧ e.clone d s = e.raise .noctx .empty) ∨
       (r.st ≠ .empty ∧ e.clone d s = (e.putCtx d r).setStatus .ok r.st))) := by
  by_cases h : e.ctx.length ≤ d.toNat
  · exact .inl ⟨.inl h, Engine.withCtx_none _ h⟩
  · have hd : e.ctx[d.toNat]? = some (e.ctx[d.toNat]'(by omega)) := List.getElem?_eq_getElem (by omega)
    by_cases h2 : e.ctx.length ≤ s.toNat
    · refine .inl ⟨.inr h2, ?_⟩
      unfold Engine.clone
      rw [Engine.withCtx_some _ hd, Engine.withCtx_none _ h2]
    · have hc : e.ctx[s.toNat]? = some (e.ctx[s.toNat]'(by omega)) := List.getElem?_eq_getElem (by omega)
      refine .inr ⟨by omega, _, hc, ?_⟩
      unfold Engine.clone
      rw [Engine.withCtx_some _ hd, Engine.withCtx_some _ hc]
      cases hs : (e.ctx[s.toNat]'(by omega)).st
      · exact .inl ⟨rfl, by simp⟩
      · exact .inr ⟨by simp, by simp⟩
      · exact .inr ⟨by simp, by simp⟩

/-- INIT never compresses: the key block stays in the buffer (42_streaming.md R87). -/
theorem construct_eq (C : HashConfig) (dp : Datapath V) (hk : C.kb.length = 64) (hv : C.kk.toNat ≤ V.kkMax) :
    construct C dp = ⟨{ freshCtx V C with buf := keyBlock V C }, dp⟩ := by
  unfold construct
  split
  · next h => simp [keyBlock, h, freshCtx]
  · next h =>
    rw [absorb_of_le]
    · simp [freshCtx]
    · cases V <;> simp [keyBlock, h, freshCtx, HashConfig.keyBytes, hk, Variant.bb, Variant.kkMax] at hv ⊢ <;> omega

@[simp] theorem length_snapshot_kb (g : Staging) : (snapshot g).kb.length = 64 := by simp [snapshot]
@[simp] theorem length_snapshot_sb (g : Staging) : (snapshot g).sb.length = 16 := by simp [snapshot]
@[simp] theorem length_snapshot_pbk (g : Staging) : (snapshot g).pbk.length = 16 := by simp [snapshot]

/-- A valid configuration meets the five checks (R53). -/
theorem valid_iff (C : HashConfig) : C.valid V = true ↔
    (1 ≤ C.nn.toNat ∧ C.nn.toNat ≤ V.nnMax) ∧ C.kk.toNat ≤ V.kkMax ∧ C.saltLen.toNat ≤ V.saltMax ∧
    C.persLen.toNat ≤ V.persMax ∧ C.nodeOffset.toNat < 2 ^ V.noBits := by
  simp [HashConfig.valid, and_assoc]

/-- The parameter block of a valid configuration has `PB` bytes (R57). -/
theorem length_paramBlock (g : Staging) (h : (snapshot g).valid V = true) : (paramBlock V (snapshot g)).length = V.pb := by
  obtain ⟨-, -, h3, h4, -⟩ := (valid_iff _).1 h
  cases V <;> simp [Variant.saltMax, Variant.persMax] at h3 h4 <;>
    simp [paramBlock, paramHead, HashConfig.saltField, HashConfig.persField, Variant.saltMax, Variant.persMax, Variant.pb] <;> omega

end Sys2Proof.Machine
end

