-- ==== Sys2Proof/Laws/Decode.lean ====
section
/-! SUPPORT. The lemmas of the encoding: fields and words are inverse to each other, a legal word's fields, and what an aligned access
decodes to. -/

namespace Sys2Proof

theorem fieldsOf_packFields (f : CommandFields) : fieldsOf (packFields f) = f := by
  obtain ⟨op, len, ctx, src, rsv⟩ := f
  simp only [fieldsOf, packFields, CommandFields.mk.injEq]
  refine ⟨?_, ?_, ?_, ?_, ?_⟩ <;>
    (apply BitVec.eq_of_getLsbD_eq
     intro i hi
     simp only [BitVec.getLsbD_extractLsb', BitVec.getLsbD_append]
     interval_cases i <;> simp)

theorem packFields_fieldsOf (w : Word32) : packFields (fieldsOf w) = w := by
  simp only [fieldsOf, packFields]
  apply BitVec.eq_of_getLsbD_eq
  intro i hi
  simp only [BitVec.getLsbD_extractLsb', BitVec.getLsbD_append]
  interval_cases i <;> simp

/-- The words R45 lets through. -/
theorem illegalFields_false_iff (f : CommandFields) : illegalFields f = false ↔
    f.rsv = 0 ∧ f.op.toNat < 5 ∧ (f.op = opNop → f.len = 0 ∧ f.ctx = 0 ∧ f.src = 0) ∧
    (f.op = opInit ∨ f.op = opFinal → f.len = 0 ∧ f.src = 0) ∧ (f.op = opUpdate → f.src = 0 ∧ f.len.toNat ≤ 8) ∧
    (f.op = opClone → f.len = 0) := by
  simp only [illegalFields, Bool.or_eq_false_iff, bne_eq_false_iff_eq, decide_eq_false_iff_not, Bool.and_eq_false_iff,
    beq_eq_false_iff_ne]
  grind

theorem aligned_iff (a : BitVec 8) : aligned a = true ↔ a.toNat % 4 = 0 := by revert a; decide

theorem decode_readForm (a : BitVec 8) (h : aligned a = true) : decode (readForm a) = .ok (decodeRead a) := by
  simp [decode, readForm, decodeAccess, h]

theorem decode_writeForm (a : BitVec 8) (v : Word32) (h : aligned a = true) :
    decode (writeForm a v) = .ok (decodeWrite a v) := by simp [decode, writeForm, decodeAccess, h]

theorem decodeWrite_of_regAt (a : BitVec 8) (v : Word32) (r : Reg) (h : regAt a = r) : decodeWrite a v = writeOf a v r := by
  subst h; rfl

theorem decodeRead_of_regAt (a : BitVec 8) (r : Reg) (h : regAt a = r) : decodeRead a = readOf a r := by subst h; rfl

/-- A bank's register `k` stands at `base + 4k` (20_memory.md R36), and every bank offset is aligned. -/
theorem regAt_din (k : Fin 2) : regAt (bankOffset 0x10 k) = .din k := by revert k; decide
theorem regAt_cfg (k : Fin 6) : regAt (bankOffset 0x20 k) = .cfg k := by revert k; decide
theorem regAt_key (k : Fin 16) : regAt (bankOffset 0x40 k) = .key k := by revert k; decide
theorem regAt_salt (k : Fin 4) : regAt (bankOffset 0x80 k) = .salt k := by revert k; decide
theorem regAt_pers (k : Fin 4) : regAt (bankOffset 0x90 k) = .pers k := by revert k; decide
theorem regAt_dout (k : Fin 16) : regAt (bankOffset 0xC0 k) = .dout k := by revert k; decide

end Sys2Proof
end

