-- ==== Sys2Proof/Laws/PerInstr.lean ====
section
/-! SUPPORT. One lemma per instruction: its encoding is a form that its row of opcode_table.json admits (the row's format, direction,
mask and match), with the row's checks that need no `NCTX`. -/

namespace Sys2Proof.Laws.MeetsItsTableRow

open Sys2Proof

/-- A row of format cmd32: the word under the mask is the match. -/
def commandRow (mask pattern : Word32) (check : Word32 → Bool) : Form → Bool
  | .command w => w &&& mask == pattern && check w
  | .transaction _ => false

/-- A row of format mmio: a 32-bit access in the row's direction, whose offset under the mask is the match. -/
def accessRow (write : Bool) (mask pattern : BitVec 8) (check : BitVec 8 → Bool) : Form → Bool
  | .command _ => false
  | .transaction a => a.width == 4 && a.wdata.isSome == write && (a.addr &&& mask == pattern) && check a.addr

/-- The reserved offsets of R36, in either direction. -/
def reservedRow : Form → Bool
  | .command _ => false
  | .transaction a => a.width == 4 &&
      (a.addr ∈ [0x0C#8, 0x18#8, 0x1C#8, 0x38#8, 0x3C#8] || (decide (0xA0 ≤ a.addr.toNat ∧ a.addr.toNat ≤ 0xBC) && aligned a.addr))

/-- The row of each instruction, its mask and match as opcode_table.json has them. -/
def tableRow : Instr → Form → Bool
  | .nop => commandRow 0xFFFFFFFF 0x00000000 fun _ => true
  | .init _ => commandRow 0xFFFF0FFF 0x00000001 fun _ => true
  | .update _ _ => commandRow 0xFFFF00FF 0x00000002 fun w => decide ((w.extractLsb' 8 4).toNat ≤ 8)
  | .final _ => commandRow 0xFFFF0FFF 0x00000003 fun _ => true
  | .clone _ _ => commandRow 0xFFF00FFF 0x00000004 fun _ => true
  | .illegal _ => commandRow 0x00000000 0x00000000 fun w => illegalFields (fieldsOf w)
  | .rdId => accessRow false 0xFF 0x00 fun _ => true
  | .wrId _ => accessRow true 0xFF 0x00 fun _ => true
  | .rdStatus => accessRow false 0xFF 0x04 fun _ => true
  | .wrStatus _ => accessRow true 0xFF 0x04 fun _ => true
  | .wrCmd _ => accessRow true 0xFF 0x08 fun _ => true
  | .rdCmd => accessRow false 0xFF 0x08 fun _ => true
  | .wrDin _ _ => accessRow true 0xFB 0x10 fun _ => true
  | .rdDin _ => accessRow false 0xFB 0x10 fun _ => true
  | .wrCfg _ _ => accessRow true 0xE3 0x20 fun a => decide (a.toNat ≤ 0x30)
  | .wrCfg5 _ => accessRow true 0xFF 0x34 fun _ => true
  | .rdCfg _ => accessRow false 0xE3 0x20 fun a => decide (a.toNat ≤ 0x34)
  | .wrKey _ _ => accessRow true 0xC0 0x40 aligned
  | .rdKey _ => accessRow false 0xC0 0x40 aligned
  | .wrSalt _ _ => accessRow true 0xF0 0x80 aligned
  | .rdSalt _ => accessRow false 0xF0 0x80 aligned
  | .wrPers _ _ => accessRow true 0xF0 0x90 aligned
  | .rdPers _ => accessRow false 0xF0 0x90 aligned
  | .rdDout _ => accessRow false 0xC0 0xC0 aligned
  | .wrDout _ _ => accessRow true 0xC0 0xC0 aligned
  | .reserved _ _ => reservedRow

/-- A well-formed instruction is encoded as its row says. -/
def Statement (i : Instr) : Prop := i.wellFormed = true → tableRow i (encode i) = true

theorem nop : Statement .nop := fun _ => by decide
theorem init (c : BitVec 4) : Statement (.init c) := by revert c; unfold Statement; decide
theorem update (l c : BitVec 4) : Statement (.update l c) := by revert l c; unfold Statement; decide
theorem final (c : BitVec 4) : Statement (.final c) := by revert c; unfold Statement; decide
theorem clone (d s : BitVec 4) : Statement (.clone d s) := by revert d s; unfold Statement; decide
theorem illegal (f : CommandFields) : Statement (.illegal f) := by
  intro h
  have h : illegalFields f = true := h
  simp [tableRow, encode, encodeCommand, commandRow, fieldsOf_packFields, h]
theorem rdId : Statement .rdId := fun _ => by decide
theorem wrId (v : Word32) : Statement (.wrId v) := fun _ => by simp [tableRow, accessRow, encode, writeForm]
theorem rdStatus : Statement .rdStatus := fun _ => by decide
theorem wrStatus (v : Word32) : Statement (.wrStatus v) := fun _ => by simp [tableRow, accessRow, encode, writeForm]
theorem wrCmd (w : Word32) : Statement (.wrCmd w) := fun _ => by simp [tableRow, accessRow, encode, writeForm]
theorem rdCmd : Statement .rdCmd := fun _ => by decide

/-- The row of a write looks at the offset alone, not at the data. -/
theorem accessRow_write (mask pattern : BitVec 8) (check : BitVec 8 → Bool) (a : BitVec 8) (v : Word32) :
    accessRow true mask pattern check (writeForm a v) = accessRow false mask pattern check (readForm a) := rfl

theorem wrDin (k : Fin 2) (v : Word32) : Statement (.wrDin k v) := fun h => by
  clear h
  simp only [tableRow, encode, accessRow_write]; revert k; decide
theorem rdDin (k : Fin 2) : Statement (.rdDin k) := by revert k; unfold Statement; decide
theorem wrCfg (k : Fin 5) (v : Word32) : Statement (.wrCfg k v) := fun h => by
  clear h
  simp only [tableRow, encode, accessRow_write]; revert k; decide
theorem wrCfg5 (v : Word32) : Statement (.wrCfg5 v) := fun _ => by simp [tableRow, accessRow, encode, writeForm]
theorem rdCfg (k : Fin 6) : Statement (.rdCfg k) := by revert k; unfold Statement; decide
theorem wrKey (k : Fin 16) (v : Word32) : Statement (.wrKey k v) := fun h => by
  clear h
  simp only [tableRow, encode, accessRow_write]; revert k; decide
theorem rdKey (k : Fin 16) : Statement (.rdKey k) := by revert k; unfold Statement; decide
theorem wrSalt (k : Fin 4) (v : Word32) : Statement (.wrSalt k v) := fun h => by
  clear h
  simp only [tableRow, encode, accessRow_write]; revert k; decide
theorem rdSalt (k : Fin 4) : Statement (.rdSalt k) := by revert k; unfold Statement; decide
theorem wrPers (k : Fin 4) (v : Word32) : Statement (.wrPers k v) := fun h => by
  clear h
  simp only [tableRow, encode, accessRow_write]; revert k; decide
theorem rdPers (k : Fin 4) : Statement (.rdPers k) := by revert k; unfold Statement; decide
theorem rdDout (k : Fin 16) : Statement (.rdDout k) := by revert k; unfold Statement; decide
theorem wrDout (k : Fin 16) (v : Word32) : Statement (.wrDout k v) := fun h => by
  clear h
  simp only [tableRow, encode, accessRow_write]; revert k; decide

theorem reservedRow_iff : ∀ a : BitVec 8, aligned a = true → regAt a = .reserved → reservedRow (readForm a) = true := by decide

theorem reserved (a : BitVec 8) (v : Option Word32) : Statement (.reserved a v) := by
  intro h
  obtain ⟨h1, h2⟩ : aligned a = true ∧ regAt a = .reserved := by simpa [Instr.wellFormed] using h
  cases v <;> exact reservedRow_iff a h1 h2

end Sys2Proof.Laws.MeetsItsTableRow
end

