-- ==== Sys2Proof/Laws/Scheduler.lean ====
section
/-! SUPPORT. The small lemmas of the scheduler and of the nested rounds. -/

namespace Sys2Proof.Machine

variable {V : Variant}

theorem rounds_pos : 0 < V.rounds := by cases V <;> decide

theorem roundUpTo_succ (m v : Vector (Word V) 16) (r n : Nat) (h : n < 8) :
    roundUpTo m r v (n + 1) = mixAt m r ⟨n, h⟩ (roundUpTo m r v n) := by simp [roundUpTo, h]

@[simp] theorem mixRounds_zero (m v : Vector (Word V) 16) : mixRounds m v 0 = v := rfl

theorem mixRounds_succ (m v : Vector (Word V) 16) (n : Nat) :
    mixRounds m v (n + 1) = roundUpTo m n (mixRounds m v n) 8 := rfl

/-- The last of `n + 1` MIX steps taken apart. -/
theorem mixSteps_succ (n : Nat) (dp : Datapath V) :
    Datapath.mixSteps (n + 1) dp = (Datapath.mixSteps n dp).mixStep := by
  induction n generalizing dp with
  | zero => rfl
  | succ n ih => rw [Datapath.mixSteps, ih]; rfl

/-- A MIX step inside a round goes to the next step (R70). -/
theorem mixStep_of_lt (v m : Vector (Word V) 16) (r : Nat) (j : Fin 8) (h : j.val < 7) :
    (⟨v, m, .mix, r, j⟩ : Datapath V).mixStep = ⟨mixAt m r j v, m, .mix, r, ⟨j.val + 1, by omega⟩⟩ := by
  simp [Datapath.mixStep, h]

/-- The last MIX step of a round that is not the last goes to the next round (R70). -/
theorem mixStep_of_round_lt (v m : Vector (Word V) 16) (r : Nat) (h : r < V.rounds - 1) :
    (⟨v, m, .mix, r, 7⟩ : Datapath V).mixStep = ⟨mixAt m r 7 v, m, .mix, r + 1, 0⟩ := by
  simp [Datapath.mixStep, h]

/-- The last MIX step of the last round goes to FOLD (R70). -/
theorem mixStep_of_last (v m : Vector (Word V) 16) :
    (⟨v, m, .mix, V.rounds - 1, 7⟩ : Datapath V).mixStep = ⟨mixAt m (V.rounds - 1) 7 v, m, .fold, V.rounds - 1, 7⟩ := by
  simp [Datapath.mixStep]

end Sys2Proof.Machine
end

