-- ==== Sys2Proof/Machine/Timing.lean ====
section
/-! DEFINITION. The counts the spec fixes and the latency it leaves open (42_streaming.md R100, 43_host_commands.md R122,
70_reset_and_hazards.md R156). No step reads them: the machine is untimed. -/

namespace Sys2Proof.Machine

/-- The number of compressions a command runs (R100, R122): one for a FINAL of a READY context, one for an UPDATE that brings a READY
context's buffer over a block, none for any other command or outcome. -/
def Engine.compressions {V : Variant} (e : Engine V) : Command → Nat
  | .nop => 0
  | .init _ => 0
  | .update len c =>
    match e.ctx[c.toNat]? with
    | none => 0
    | some r => if r.st = .ready ∧ V.bb < r.buf.length + (updateData e.stage len).length then 1 else 0
  | .final c =>
    match e.ctx[c.toNat]? with
    | none => 0
    | some r => if r.st = .ready then 1 else 0
  | .clone _ _ => 0
  | .illegal _ => 0

/-- The steps of one compression: one LOAD, `8·R` MIX steps and one FOLD (R156). They are not cycles. -/
def compressionSteps (V : Variant) : Nat := 1 + 8 * V.rounds + 1

/-- The wait states of a write of `w` to CMD, by the open `LAT` (R156). -/
def Engine.waitStates {V : Variant} (e : Engine V) (w : Word32) : Nat :=
  Config.waitStates w (e.compressions (decodeCommand w))

end Sys2Proof.Machine
end

