-- ==== Sys2Proof/Laws/Timing.lean ====
section
/-! SUPPORT. The number of compressions of a command, and the datapath of one that runs none. -/

namespace Sys2Proof.Machine

variable {V : Variant}

/-- Every command runs at most one compression (42_streaming.md R100). -/
theorem compressions_le_one (e : Engine V) (k : Command) : e.compressions k ≤ 1 := by
  cases k <;> simp only [Engine.compressions] <;> repeat' split
  all_goals omega

/-- A command that runs no compression leaves the datapath as it was. -/
theorem run_dp_of_compressions_eq_zero (e : Engine V) (k : Command) (h : e.compressions k = 0) : (e.run k).dp = e.dp := by
  cases k with
  | nop => rfl
  | init c =>
    rcases Engine.init_cases c e with ⟨-, h1⟩ | ⟨-, hv, h1⟩ | ⟨-, -, h1⟩ <;> rw [Engine.run, h1]
    · rfl
    · rw [construct_eq _ _ (length_snapshot_kb _) ((valid_iff _).1 hv).2.1]; rfl
    · rfl
  | update len c =>
    rcases Engine.update_cases len c e with ⟨-, h1⟩ | ⟨r, hr, ⟨-, h1⟩ | ⟨-, h1⟩ | ⟨hs, h1⟩⟩ <;> rw [Engine.run, h1]
    · rfl
    · rfl
    · rfl
    · simp only [Engine.compressions, hr, hs, true_and, ite_eq_right_iff] at h
      rw [absorb_of_le _ _ (by simp only [List.length_append]; omega)]; rfl
  | final c =>
    rcases Engine.final_cases c e with ⟨-, h1⟩ | ⟨r, hr, ⟨-, h1⟩ | ⟨hs, h1⟩ | ⟨-, h1⟩⟩ <;> rw [Engine.run, h1]
    · rfl
    · rfl
    · simp [Engine.compressions, hr, hs] at h
    · rfl
  | clone d s =>
    rcases Engine.clone_cases d s e with ⟨-, h1⟩ | ⟨-, r, -, ⟨-, h1⟩ | ⟨-, h1⟩⟩ <;> rw [Engine.run, h1] <;> rfl
  | illegal f => rfl

end Sys2Proof.Machine
end

