-- ==== Sys2Proof/Machine/HostProgram.lean ====
section
/-! DEFINITION. Host programs: the statements and the pseudo-instructions the spec writes them in (30_encoding.md R49, R50), as the
accesses they stand for, and what is observed of a run (70_reset_and_hazards.md R157). `Host.Core.run` makes its steps. -/

namespace Sys2Proof.Machine

/-- A statement of a host program (R49, R50). A register operand is the register's offset. -/
inductive HostStatement where
  | wr (off : BitVec 8) (imm : Word32)
  | rd (off : BitVec 8)
  | nop
  | init (c : BitVec 4)
  | update (c len : BitVec 4)
  | final (c : BitVec 4)
  | clone (d s : BitVec 4)
  | cmd (imm : Word32)
  | cfg0 (nn kk fanout depth : BitVec 8)
  | cfg4 (nodeDepth inner saltLen persLen : BitVec 8)
  | setKey (bytes : List Byte)
  | setSalt (bytes : List Byte)
  | setPers (bytes : List Byte)
  | feed (c : BitVec 4) (bytes : List Byte)
  | digest (dlen : Nat)
  deriving DecidableEq, Repr

/-- `MemRead(off, 4)` and `MemWrite(off, 4, v)` (00_scope.md R10). -/
def memRead (off : BitVec 8) : Access := ⟨off, 4, none⟩
def memWrite (off : BitVec 8) (v : Word32) : Access := ⟨off, 4, some v⟩

/-- The write of CMD that carries a command. -/
def cmdWrite (k : Command) : Access := memWrite 0x08 (encodeCommand k)

/-- `setbank`: the bytes four at a time into the registers from offset `base` on, the last register padded with zeros (R50). -/
def setBank (base : Nat) (bytes : List Byte) : List Access :=
  (List.range ((bytes.length + 3) / 4)).map fun k => memWrite (bankOffset base k) (regOfBytes bytes k)

/-- `feed`: chunks of 8 bytes, the last of 1 to 8, each as DIN0, DIN1 and an UPDATE of its length (R50). -/
def feedBytes (c : BitVec 4) (bytes : List Byte) : List Access :=
  (List.range ((bytes.length + 7) / 8)).flatMap fun k =>
    let q := slice bytes (8 * k) (8 * k + 8)
    [memWrite 0x10 (regOfBytes q 0), memWrite 0x14 (regOfBytes q 1), cmdWrite (.update (BitVec.ofNat 4 q.length) c)]

/-- The accesses of a statement (R49, R50). `digest` reads STATUS and then the words of a digest of `dlen` bytes, the DLEN it read. -/
def HostStatement.expand : HostStatement → List Access
  | .wr off imm => [memWrite off imm]
  | .rd off => [memRead off]
  | .nop => [cmdWrite .nop]
  | .init c => [cmdWrite (.init c)]
  | .update c len => [cmdWrite (.update len c)]
  | .final c => [cmdWrite (.final c)]
  | .clone d s => [cmdWrite (.clone d s)]
  | .cmd imm => [memWrite 0x08 imm]
  | .cfg0 nn kk fanout depth => [memWrite 0x20 (depth ++ fanout ++ kk ++ nn)]
  | .cfg4 nodeDepth inner saltLen persLen => [memWrite 0x30 (persLen ++ saltLen ++ inner ++ nodeDepth)]
  | .setKey bytes => setBank 0x40 bytes
  | .setSalt bytes => setBank 0x80 bytes
  | .setPers bytes => setBank 0x90 bytes
  | .feed c bytes => feedBytes c bytes
  | .digest dlen => memRead 0x04 :: (List.range ((dlen + 3) / 4)).map fun k => memRead (bankOffset 0xC0 k)

/-- The machine with a program's accesses behind what is pending. -/
def State.load (s : State) (p : List HostStatement) : State :=
  { s with bus := { s.bus with pending := s.bus.pending ++ (p.flatMap HostStatement.expand).map HostEvent.access } }

/-- What is observed of a run: the values its reads returned, and STATUS, DOUT and the context records after its last access (R157). -/
structure Observation (V : Variant) where
  reads  : List Word32
  status : Word32
  dout   : Vector Word32 16
  ctx    : List (Ctx V)
  deriving DecidableEq, Repr

def State.observation (s : State) : Observation s.variant := ⟨s.bus.reads, s.eng.status.word, s.eng.dout, s.eng.ctx⟩

end Sys2Proof.Machine
end

