-- ==== Sys2Proof/Tests/Slice0.lean ====
section
/-! SUPPORT. The model's own tests, each on one step or one operation; the expected values are those of the spec's encodings, worked
examples and vectors (95_test_vectors.md). After them, one witness for the hypotheses of each obligation. -/

namespace Sys2Proof.Tests

open Sys2Proof Sys2Proof.Machine

/-! ### WellFormed: each check refuses an ill-formed term -/

theorem test_wf_update_len : (Instr.update 9 0).wellFormed = false ∧ (Instr.update 8 0).wellFormed = true := by decide
theorem test_wf_command_len : (Command.update 9 0).wellFormed = false ∧ (Command.illegal ⟨1, 0, 3, 0, 0⟩).wellFormed = false := by decide
theorem test_wf_illegal_fields : (Instr.illegal ⟨4, 0, 1, 1, 0⟩).wellFormed = false ∧ (Instr.illegal ⟨4, 1, 1, 1, 0⟩).wellFormed = true := by decide
theorem test_wf_reserved_register : (Instr.reserved 0x08 none).wellFormed = false ∧ (Instr.reserved 0xBC none).wellFormed = true := by decide
theorem test_wf_reserved_aligned : (Instr.reserved 0xA1 (some 0)).wellFormed = false := by decide

/-! ### Decode: words written out from R42, R44 and R36 -/

theorem test_decode_nop : decodeCommand 0b000000000000_0000_0000_0000_00000000#32 = .nop := by decide
theorem test_decode_init : decodeCommand 0b000000000000_0000_1111_0000_00000001#32 = .init 15 := by decide
theorem test_decode_update : decodeCommand 0b000000000000_0000_0001_0011_00000010#32 = .update 3 1 := by decide
theorem test_decode_final : decodeCommand 0b000000000000_0000_0101_0000_00000011#32 = .final 5 := by decide
theorem test_decode_clone : decodeCommand 0b000000000000_0010_0001_0000_00000100#32 = .clone 1 2 := by decide
/-- The words T42 gives as ILLEGAL, one or more for each condition of R45. -/
theorem test_decode_illegal : [0x00100001#32, 0x80000002#32, 0x00000005#32, 0x000000ff#32, 0x00000100#32, 0x00001000#32, 0x00000101#32,
    0x00010003#32, 0x00010002#32, 0x00000902#32, 0x00000f02#32, 0x00000104#32].all (fun w => decodeCommand w == .illegal (fieldsOf w)) = true := by decide
theorem test_decode_fields : fieldsOf 0x80234905 = ⟨0x05, 9, 4, 3, 0x802⟩ := by decide

/-- One offset of each register of R36, read. -/
theorem test_decode_reads :
    decode (readForm 0x00) = .ok .rdId ∧ decode (readForm 0x04) = .ok .rdStatus ∧ decode (readForm 0x08) = .ok .rdCmd ∧
    decode (readForm 0x14) = .ok (.rdDin 1) ∧ decode (readForm 0x34) = .ok (.rdCfg 5) ∧ decode (readForm 0x7C) = .ok (.rdKey 15) ∧
    decode (readForm 0x88) = .ok (.rdSalt 2) ∧ decode (readForm 0x9C) = .ok (.rdPers 3) ∧ decode (readForm 0xC0) = .ok (.rdDout 0) ∧
    decode (readForm 0x38) = .ok (.reserved 0x38 none) := by decide
/-- One offset of each register of R36, written. -/
theorem test_decode_writes :
    decode (writeForm 0x00 7) = .ok (.wrId 7) ∧ decode (writeForm 0x04 7) = .ok (.wrStatus 7) ∧ decode (writeForm 0x08 7) = .ok (.wrCmd 7) ∧
    decode (writeForm 0x10 7) = .ok (.wrDin 0 7) ∧ decode (writeForm 0x30 7) = .ok (.wrCfg 4 7) ∧ decode (writeForm 0x34 7) = .ok (.wrCfg5 7) ∧
    decode (writeForm 0x44 7) = .ok (.wrKey 1 7) ∧ decode (writeForm 0x80 7) = .ok (.wrSalt 0 7) ∧ decode (writeForm 0x94 7) = .ok (.wrPers 1 7) ∧
    decode (writeForm 0xFC 7) = .ok (.wrDout 15 7) ∧ decode (writeForm 0xBC 7) = .ok (.reserved 0xBC (some 7)) := by decide
/-- R34: another width, or an offset that is not a multiple of 4, has no instruction. -/
theorem test_decode_rejects : decode (.transaction ⟨0x10, 1, none⟩) = .error (.hostProtocol 0x10 1) ∧
    decode (.transaction ⟨0x12, 4, some 0⟩) = .error (.hostProtocol 0x12 4) := by decide
/-- The numbering of opcode_table.json: a row of 32 bits is a command word, a row of 8 bits an offset that is read. -/
theorem test_decodeTableWord : decodeTableWord 32 0x00001302 = some (.update 3 1) ∧ decodeTableWord 8 0x08 = some .rdCmd ∧
    decodeTableWord 8 0x1000000034 = some (.rdCfg 5) ∧ decodeTableWord 8 0x10134 = some (.wrCfg5 1) := by decide

/-! ### Small states, and what a test looks at -/

/-- An engine with two contexts as reset leaves it (R147). -/
def fresh (V : Variant) : Engine V := Engine.reset V 2

/-- That engine with context 0 replaced. -/
def holding {V : Variant} (r : Ctx V) : Engine V := { fresh V with ctx := [r, Ctx.emptyRecord V] }

/-- A context as `init` of the reset configuration constructs it. -/
def newCtx (V : Variant) : Ctx V := freshCtx V (snapshot (Staging.reset V))

/-- A READY context that has `bs` in its buffer. -/
def buffered (V : Variant) (bs : List Byte) : Ctx V := { newCtx V with buf := bs }

/-- A FINAL context with `bs` as its cached digest. -/
def finished (V : Variant) (bs : List Byte) : Ctx V := { newCtx V with st := .final, f0 := ones V, dig := bs }

/-- An engine on an idle bus. -/
def on {V : Variant} (e : Engine V) : State := ⟨V, e, ⟨[], []⟩⟩

/-- The state after a step that goes on. -/
def after : Host.Outcome State Fault Refusal → Option State
  | .next s => some s
  | .fault _ => none
  | .refused _ => none

/-- The word at an offset, after a step. -/
def word (a : BitVec 8) (o : Host.Outcome State Fault Refusal) : Option Word32 := (after o).map fun s => s.eng.peek a

/-- STATUS, after a step. -/
def status (o : Host.Outcome State Fault Refusal) : Option Word32 := word 0x04 o

/-- What the reads have returned, after a step. -/
def returned (o : Host.Outcome State Fault Refusal) : Option (List Word32) := (after o).map fun s => s.bus.reads

/-- A context's lifecycle, counter, first word and buffer, after a step. -/
def context (c : Nat) (o : Host.Outcome State Fault Refusal) : Option (Lifecycle × Nat × Nat × List Byte) :=
  (after o).bind fun s => (s.eng.ctx[c]?).map fun r => (r.st, r.t.toNat, r.h[0].toNat, r.buf)

/-- The bytes of "abc". -/
def abc : List Byte := [0x61, 0x62, 0x63]

/-! ### Commands -/

/-- R102: STATUS 0x00004023 becomes 0x00004020. -/
theorem test_nop : status (exec .nop (on { fresh .B with status := ⟨.illegal, .final, 64⟩ })) = some 0x00004020 := by decide
/-- R103: the reset configuration, in B and in S (T12, T13). -/
theorem test_init : status (exec (.init 0) (on (fresh .B))) = some 0x00000010 ∧
    context 0 (exec (.init 0) (on (fresh .B))) = some (.ready, 0, 0x6a09e667f2bdc948, []) ∧
    context 1 (exec (.init 1) (on (fresh .S))) = some (.ready, 0, 0x6b08e647, []) := by decide +kernel
/-- T42: CFG0 = 0x01010000 (`nn = 0`) over a READY context leaves it EMPTY. -/
theorem test_init_config : let e := { holding (newCtx .B) with stage := { Staging.reset .B with cfg := #v[0x01010000, 0, 0, 0, 0] } }
    status (exec (.init 0) (on e)) = some 0x00000001 ∧ context 0 (exec (.init 0) (on e)) = some (.empty, 0, 0, []) := by decide +kernel
/-- R104: `wr DIN0, 0x00636261`, then `update c0, 3`. -/
theorem test_update : let e := { holding (newCtx .B) with stage := { Staging.reset .B with din := #v[0x00636261, 0] } }
    status (exec (.update 3 0) (on e)) = some 0x00000010 ∧
    context 0 (exec (.update 3 0) (on e)) = some (.ready, 0, 0x6a09e667f2bdc948, abc) := by decide +kernel
/-- R89: in S, 64 bytes buffered and one more: the 64 are compressed with the counter at 64, and 1 is left. -/
theorem test_update_compresses : (context 0 (exec (.update 1 0) (on (holding (buffered .S (zeros 64)))))).map (fun x => (x.1, x.2.1, x.2.2.2)) =
    some (.ready, 64, [0]) := by decide +kernel
/-- P1: `final c0` after "abc" in B: STATUS, DOUT0, DOUT1 and DOUT15 (the digest's last four bytes, `d4009923`, of T3). -/
theorem test_final : let o := exec (.final 0) (on (holding (buffered .B abc)))
    status o = some 0x00004020 ∧ word 0xC0 o = some 0x3fa580ba ∧ word 0xC4 o = some 0x0d4d1c98 ∧
    word 0xFC o = some 0x239900d4 ∧ (context 0 o).map (fun x => (x.1, x.2.1, x.2.2.2)) = some (.final, 3, []) := by decide +kernel
/-- T43: in S the digest takes eight words and the others read 0; a FINAL context gives its cached digest back. -/
theorem test_final_cached : let o := exec (.final 0) (on (holding (finished .S (toLE 32 0x508c5e8c))))
    status o = some 0x00002020 ∧ word 0xC0 o = some 0x508c5e8c ∧ word 0xE0 o = some 0 := by decide +kernel
/-- R106: `clone c1, c0` after "abc". -/
theorem test_clone : let o := exec (.clone 1 0) (on (holding (buffered .B abc)))
    status o = some 0x00000010 ∧ context 1 o = context 0 o ∧ (context 1 o).map (fun x => x.2.2.2) = some abc := by decide +kernel
/-- R131: a CLONE of an EMPTY context reports NOCTX and leaves the destination. -/
theorem test_clone_noctx : let o := exec (.clone 0 1) (on (holding (buffered .B abc)))
    status o = some 0x00000004 ∧ (context 0 o).map (fun x => x.2.2.2) = some abc := by decide +kernel
/-- R107: with `NCTX = 2` and STATUS = 0x00004020, each of the four words gives STATUS = 0x00004023. -/
theorem test_illegal : [0x00000005#32, 0x00002302#32, 0x00000902#32, 0x00001000#32].all
    (fun w => status (exec (.wrCmd w) (on { fresh .B with status := ⟨.ok, .final, 64⟩ })) == some 0x00004023) = true := by decide +kernel
/-- T42: on an EMPTY context UPDATE and FINAL report NOCTX; on a FINAL one UPDATE reports STATE. -/
theorem test_errors : status (exec (.wrCmd 0x00000302) (on (fresh .B))) = some 0x00000004 ∧ status (exec (.wrCmd 0x00000003) (on (fresh .B))) = some 0x00000004 ∧
    status (exec (.wrCmd 0x00000302) (on { holding (finished .B []) with status := ⟨.ok, .final, 64⟩ })) = some 0x00004022 := by decide +kernel

/-! ### Register accesses (T40, T41) -/

theorem test_rdId : returned (exec .rdId (on (fresh .B))) = some [0xb2020c40] ∧ returned (exec .rdId (on (Engine.reset .S 1))) = some [0xb2010a20] := by decide
theorem test_rdCfg_reset : returned (exec (.rdCfg 0) (on (fresh .B))) = some [0x01010040] ∧ returned (exec (.rdCfg 0) (on (fresh .S))) = some [0x01010020] := by decide
theorem test_rdStatus : returned (exec .rdStatus (on { fresh .B with status := ⟨.state, .final, 64⟩ })) = some [0x00004022] := by decide
theorem test_wrCfg5 : word 0x34 (exec (.wrCfg5 0xffffffff) (on (fresh .B))) = some 1 := by decide
theorem test_wrCfg : word 0x20 (exec (.wrCfg 0 0xdeadbeef) (on (fresh .B))) = some 0xdeadbeef := by decide
theorem test_wrDin : word 0x10 (exec (.wrDin 0 0x12345678) (on (fresh .B))) = some 0x12345678 := by decide
theorem test_wrKey : word 0x44 (exec (.wrKey 1 0xa5a5a5a5) (on (fresh .B))) = some 0xa5a5a5a5 ∧ word 0x40 (exec (.wrKey 1 0xa5a5a5a5) (on (fresh .B))) = some 0 := by decide
theorem test_wrSalt_wrPers : word 0x8C (exec (.wrSalt 3 7) (on (fresh .S))) = some 7 ∧ word 0x9C (exec (.wrPers 3 9) (on (fresh .S))) = some 9 := by decide
theorem test_wr_ignored : word 0x00 (exec (.wrId 0xffffffff) (on (fresh .B))) = some 0xb2020c40 ∧ word 0x04 (exec (.wrStatus 0xffffffff) (on (fresh .B))) = some 0 ∧
    word 0xC0 (exec (.wrDout 0 0xffffffff) (on (fresh .B))) = some 0 ∧ word 0xBC (exec (.reserved 0xBC (some 0xffffffff)) (on (fresh .B))) = some 0 := by decide
theorem test_rdCmd : returned (exec .rdCmd (on (fresh .B))) = some [0] ∧ returned (exec (.reserved 0x0C none) (on (fresh .B))) = some [0] := by decide

/-! ### Steps -/

/-- The machine right after reset runs a placed form as its first instruction. -/
theorem test_step_withFetchWord : status (step (State.reset.withFetchWord 32 0x00000001)) = some 0x00000010 ∧
    returned (step (State.reset.withFetchWord 8 0x20)) = some [0x01010040] := by decide +kernel
theorem test_step_refuses : step ((on (fresh .S)).place (.access ⟨0x09, 4, none⟩)) = .refused (.hostProtocol 0x09 4) := rfl
theorem test_step_reset : context 0 (step ((on (holding (buffered .B abc))).place (.resetInCmd 3))) = some (.empty, 0, 0, []) := by decide +kernel

/-! ### The parameter block (T7, T10, T11, T34, T35) -/

/-- The staging registers of a configuration, with the salt "SALTsalt" and the personalization "me". -/
def treeStage (cfg0 cfg4 : Word32) : Staging where
  din  := #v[0, 0]
  cfg  := #v[cfg0, 0x01020304, 0x07080910, 0x00000506, cfg4]
  cfg5 := 1
  key  := Vector.replicate 16 0
  salt := #v[0x544c4153, 0x746c6173, 0, 0]
  pers := #v[0x0000656d, 0, 0, 0]

/-- A configuration of T7: the reset one with CFG0, CFG3 and CFG4 as given. -/
def t7 (V : Variant) (cfg0 cfg3 cfg4 : Word32) : Bool :=
  (snapshot { Staging.reset V with cfg := #v[cfg0, 0, 0, cfg3, cfg4] }).valid V

theorem test_valid_B : t7 .B 0x01010001 0 0 = true ∧ t7 .B 0x01014040 0 0x10100000 = true ∧ t7 .B 0x01010040 0xffffffff 0 = true ∧ t7 .B 0x01010000 0 0 = false ∧
    t7 .B 0x01010041 0 0 = false ∧ t7 .B 0x01014140 0 0 = false ∧ t7 .B 0x01010040 0 0x00110000 = false ∧ t7 .B 0x01010040 0 0x11000000 = false := by decide
theorem test_valid_S : t7 .S 0x01012020 0x0000ffff 0x08080000 = true ∧ t7 .S 0x01010021 0 0 = false ∧ t7 .S 0x01012120 0 0 = false ∧
    t7 .S 0x01010020 0 0x00090000 = false ∧ t7 .S 0x01010020 0 0x09000000 = false ∧ t7 .S 0x01010020 0x00010000 0 = false := by decide
theorem test_paramBlock_reset : paramBlock .B (snapshot (Staging.reset .B)) = [0x40, 0, 1, 1] ++ zeros 60 ∧
    paramBlock .S (snapshot (Staging.reset .S)) = [0x20, 0, 1, 1] ++ zeros 28 := by decide
theorem test_paramBlock_T34 : paramBlock .B (snapshot (treeStage 0x03020020 0x02084001)) =
    [0x20, 0, 2, 3, 4, 3, 2, 1, 0x10, 9, 8, 7, 6, 5, 0, 0, 1, 0x40] ++ zeros 14 ++
    [0x53, 0x41, 0x4c, 0x54, 0x73, 0x61, 0x6c, 0x74] ++ zeros 8 ++ [0x6d, 0x65] ++ zeros 14 := by decide
theorem test_paramBlock_T35 : paramBlock .S (snapshot (treeStage 0x03020010 0x02082001)) =
    [0x10, 0, 2, 3, 4, 3, 2, 1, 0x10, 9, 8, 7, 6, 5, 1, 0x20, 0x53, 0x41, 0x4c, 0x54, 0x73, 0x61, 0x6c, 0x74, 0x6d, 0x65] ++ zeros 6 := by decide
theorem test_initialH_T34 : initialH .B (snapshot (treeStage 0x03020020 0x02084001)) =
    #v[0x6b0be563f0bec928, 0xbb67ab8383c2ae2b, 0x3c6ef372fe94b82a, 0xa54ff53a5f1d36f1,
       0x2562330cf9aac382, 0x9b05688c2b3e6c1f, 0x1f83d9abfb41d806, 0x5be0cd19137e2179] := by decide +kernel
/-- T32: the padded key block of one key byte. -/
theorem test_keyBlock : keyBlock .S { snapshot (Staging.reset .S) with kk := 1, kb := zeros 64 } = zeros 64 ∧
    keyBlock .B (snapshot (Staging.reset .B)) = [] := by decide

/-! ### G, compression, counter (T15 to T23, T37) -/

/-- G on quadruple 0 of a vector that holds the four inputs. -/
def g (V : Variant) (a b c d mx my : Word V) : List (Word V) :=
  let z : Word V := 0
  let v := mixG #v[a, z, z, z, b, z, z, z, c, z, z, z, d, z, z, z] quads[0] mx my
  [v[0], v[4], v[8], v[12]]

theorem test_G_T15 : g .B 1 2 3 4 5 6 = [0x0000010000000c0e, 0x181c021802181806, 0x0c0e000c010c0003, 0x0c0e0000010c0000] := by decide +kernel
theorem test_G_T17 : let o : Word .B := ones .B
    g .B o o o o o o = [0x000000fffffffdfc, 0xfbf801fbfe0403fd, 0xfdfc000200fdfffe, 0xfdfc000000fdffff] := by decide +kernel
theorem test_G_T18 : g .B 0x6a09e667f3bcc908 0x510e527fade682d1 0xbb67ae8584caa73b 0x9b05688c2b3e6c1f 0x0123456789abcdef 0xfedcba9876543210 =
    [0xa95768d279196ed9, 0xbb99c4d03cf07e49, 0x33f3cd82c90e1c25, 0x781aa9261d055e27] := by decide +kernel
theorem test_G_T19a : g .S 1 2 3 4 5 6 = [0x001000ce, 0x879c3839, 0xce0c1c03, 0xce001c00] := by decide +kernel
theorem test_G_T19d : g .S 0x6a09e667 0x510e527f 0xbb67ae85 0x9b05688c 0x89abcdef 0x76543210 = [0x7eafc5e2, 0x3b1e8a11, 0x4cd28460, 0x2310f61a] := by decide +kernel
/-- T22: the working vector after the first round of the "abc" block in S, on the datapath. -/
theorem test_round_T22 : (Datapath.mixSteps 8 (Datapath.load (newCtx .S).h (abc ++ zeros 61) 3 (ones .S) 0)).v =
    #v[0x16a3242e, 0xd7b5e238, 0xce8ce24b, 0x927aede1, 0xa7b430d9, 0x93a4a14e, 0xa44e7c31, 0x41d4759b,
       0x95bf33d3, 0x9a99c181, 0x608a3a6b, 0xb666383e, 0x7a8dd50f, 0xbe378ed7, 0x353d1ee6, 0x3bb44c6b] := by decide +kernel
/-- T21: the all-zero compression in S. -/
theorem test_compress_T21 : compress (V := .S) (Vector.replicate 8 0) (zeros 64) 0 0 0 =
    #v[0x6e26b02a, 0xa6a7800d, 0x51bb7b89, 0x1f01db51, 0x077b942d, 0x23e6122a, 0xa37d48e1, 0x6e00c75e] := by decide +kernel
theorem test_advance_T37 : (advance 128 { newCtx .B with t := 0x0000000000000000ffffffffffffff80 }).t = 0x00000000000000010000000000000000 ∧
    (advance 64 { newCtx .S with t := 0xffffffffffffffc0 }).t = 0 := by decide +kernel

/-! ### Host programs and counts (R50, R156, R122) -/

/-- R50: nine bytes are fed in chunks of 8 and 1; the accesses of P1's `feed c0, "abc"` and `digest` after a digest of 5 bytes. -/
theorem test_feed : (HostStatement.feed 1 (zeros 8 ++ [7])).expand =
      [memWrite 0x10 0, memWrite 0x14 0, memWrite 0x08 0x00001802, memWrite 0x10 7, memWrite 0x14 0, memWrite 0x08 0x00001102] ∧
    (HostStatement.feed 0 abc).expand = [memWrite 0x10 0x00636261, memWrite 0x14 0, memWrite 0x08 0x00000302] ∧
    (HostStatement.digest 5).expand = [memRead 0x04, memRead 0xC0, memRead 0xC4] := by decide
theorem test_setbank : (HostStatement.setSalt [0x53, 0x41, 0x4c, 0x54, 0x73]).expand = [memWrite 0x80 0x544c4153, memWrite 0x84 0x00000073] ∧
    (HostStatement.cfg0 0x40 0 1 2).expand = [memWrite 0x20 0x02010040] ∧ (HostStatement.cfg4 1 0x40 8 2).expand = [memWrite 0x30 0x02084001] := by decide
/-- R156: 98 steps in B and 82 in S; R122: the compressions of an UPDATE at and past a full buffer, and of FINAL. -/
theorem test_counts : compressionSteps .B = 98 ∧ compressionSteps .S = 82 ∧
    (holding (buffered .S (zeros 56))).compressions (.update 8 0) = 0 ∧ (holding (buffered .S (zeros 57))).compressions (.update 8 0) = 1 ∧
    (holding (buffered .S [])).compressions (.final 0) = 1 ∧ (holding (finished .S [])).compressions (.final 0) = 0 := by decide

/-! ### Witnesses: for each obligation with hypotheses, values that meet all of them together -/

/-- What a command leaves, on an idle bus. -/
theorem runs {V : Variant} (k : Command) (e : Engine V) : exec k.toInstr (on e) = .next (on (e.run k)) := exec_command k e ⟨[], []⟩

/-- What a write of CMD leaves, on an idle bus. -/
theorem writes {V : Variant} (x : Word32) (e : Engine V) : exec (.wrCmd x) (on e) = .next (on (e.run (decodeCommand x))) :=
  (exec_wrCmd x (on e)).trans (runs (decodeCommand x) e)

/-- A context whose lifecycle is known. -/
theorem context_of {V : Variant} {e : Engine V} {c : Nat} {l : Lifecycle} (h : (e.ctx[c]?).map (fun r => r.st) = some l) :
    ∃ r, e.ctx[c]? = some r ∧ r.st = l := by simpa using h

/-- An engine with a READY context 0 and an EMPTY context 1, on an idle bus. -/
def ready (V : Variant) : Engine V := holding (buffered V abc)

/-- DecodeOfEncodeIsTheInstruction: at the largest LEN, an ILLEGAL word and the last reserved offset. -/
theorem test_witness_decodeOfEncode : (Instr.update 8 15).wellFormed = true ∧ (Instr.illegal ⟨0xFF, 15, 15, 15, 0xFFF⟩).wellFormed = true ∧
    (Instr.reserved 0xBC (some 1)).wellFormed = true := by decide
/-- EncodeOfDecodeIsTheForm: in both formats. -/
theorem test_witness_encodeOfDecode : decode (.command 0x00020004) = .ok (.clone 0 2) ∧ decode (.transaction ⟨0xFC, 4, some 3⟩) = .ok (.wrDout 15 3) := by decide
/-- CommandsAreTheMatchAndMaskRows: a word on the right of each clause, at the largest fields. -/
theorem test_witness_matchAndMask : (0x0000F001#32 &&& 0xFFFF0FFF = 0x00000001) ∧ (0x0000F802#32 &&& 0xFFFF00FF = 0x00000002) ∧ (8#4).toNat ≤ 8 ∧
    (8#4) = (0x0000F802#32).extractLsb' 8 4 ∧ (0x0000F003#32 &&& 0xFFFF0FFF = 0x00000003) ∧ (0x000FF004#32 &&& 0xFFF00FFF = 0x00000004) ∧
    5 ≤ ((0x00000005#32).extractLsb' 0 8).toNat := by decide
/-- ContextOutOfRangeIsIllegal: two contexts, context 2. -/
theorem test_witness_contextOutOfRange : (fresh .B).ctx.length ≤ (2#4).toNat := by decide
/-- WindowMap: aligned offsets, reserved and not. -/
theorem test_witness_windowMap : (0xBC#8).toNat % 4 = 0 ∧ regAt 0xBC = .reserved ∧ (0xC0#8).toNat % 4 = 0 ∧ regAt 0xC0 ≠ .reserved := by decide
/-- StepRunsTheDecodedAccess. -/
theorem test_witness_stepRuns : decodeAccess ⟨0x08, 4, some 3⟩ = .ok (.wrCmd 3) := rfl
/-- ResetValues and ResetMeetsTheInvariant: both ends of `NCTX`, and an aligned offset. -/
theorem test_witness_reset : (1 ≤ 1 ∧ 1 ≤ 16) ∧ (1 ≤ 16 ∧ 16 ≤ 16) ∧ (0x20#8).toNat % 4 = 0 := by decide
/-- RdIdReturnsTheIdentity: 16 contexts. -/
theorem test_witness_rdId : (Engine.reset .S 16).ctx.length ≤ 16 := by decide
/-- ReservedOffsetsReadZeroAndIgnoreWrites: both ends of the last range. -/
theorem test_witness_reserved : ∀ a ∈ [0xA0#8, 0xBC#8], 0xA0 ≤ a.toNat ∧ a.toNat ≤ 0xBC ∧ a.toNat % 4 = 0 := by decide
/-- EveryReadIsFreeOfSideEffects and WriteIsReadBackThereAlone: at CFG5, at another staging register and at a register that ignores writes. -/
theorem test_witness_access : ∀ a ∈ [0x34#8, 0x9C#8, 0xFC#8], a.toNat % 4 = 0 ∧ a ≠ 0x08 := by decide
/-- ValidityIsTheFiveChecks, InitConstructsTheHasher, the two parameter block layouts, SessionDigestIsTheHashOfTheMessage: a legal configuration. -/
theorem test_witness_init : (0#4).toNat < (fresh .B).ctx.length ∧ (snapshot (fresh .B).stage).valid .B = true ∧ (snapshot (treeStage 0x03020020 0x02084001)).valid .B = true ∧
    (snapshot (treeStage 0x03020010 0x02082001)).valid .S = true := by decide
/-- InitOfInvalidConfigurationEmptiesTheContext: `nn = 0`. -/
theorem test_witness_initInvalid : (1#4).toNat < (fresh .S).ctx.length ∧
    (snapshot { Staging.reset .S with cfg := #v[0x01010000, 0, 0, 0, 0] }).valid .S = false := by decide
/-- UpdateAbsorbsItsBytes, its first clause where the buffer becomes exactly one block. -/
theorem test_witness_update_fits : let r := buffered .S (zeros 56)
    (8#4).toNat ≤ 8 ∧ (holding r).ctx[(0#4).toNat]? = some r ∧ r.st = .ready ∧ r.buf.length ≤ Variant.S.bb ∧
    (r.buf ++ (toLE 4 (holding r).stage.din[0].toNat ++ toLE 4 (holding r).stage.din[1].toNat).take (8#4).toNat).length ≤ Variant.S.bb :=
  ⟨by decide, rfl, rfl, by decide, by decide⟩
/-- UpdateAbsorbsItsBytes, its second clause where the buffer becomes one byte more. -/
theorem test_witness_update_over : let r := buffered .S (zeros 57)
    (8#4).toNat ≤ 8 ∧ (holding r).ctx[(0#4).toNat]? = some r ∧ r.st = .ready ∧ r.buf.length ≤ Variant.S.bb ∧
    Variant.S.bb < (r.buf ++ (toLE 4 (holding r).stage.din[0].toNat ++ toLE 4 (holding r).stage.din[1].toNat).take (8#4).toNat).length :=
  ⟨by decide, rfl, rfl, by decide, by decide⟩
/-- EmptyContextReportsNoctx, and CloneCopiesTheSource from an EMPTY source. -/
theorem test_witness_noctx : (ready .B).ctx[(1#4).toNat]? = some (Ctx.emptyRecord .B) ∧ (Ctx.emptyRecord .B).st = .empty ∧ (0#4).toNat < (ready .B).ctx.length :=
  ⟨rfl, rfl, by decide⟩
/-- UpdateOfFinalReportsState, FinalOfFinalReturnsTheCachedDigest, and UpdateOfNoBytesChangesNothing on a FINAL context. -/
theorem test_witness_final : (holding (finished .B (zeros 64))).ctx[(0#4).toNat]? = some (finished .B (zeros 64)) ∧ (finished .B (zeros 64)).st = .final ∧
    (finished .B (zeros 64)).buf.length ≤ Variant.B.bb := ⟨rfl, rfl, by decide⟩
/-- FinalFinalizesTheContext, UpdateOfNoBytesChangesNothing on a READY context, and CloneCopiesTheSource from one, onto itself and onto another. -/
theorem test_witness_ready : (ready .B).ctx[(0#4).toNat]? = some (buffered .B abc) ∧ (buffered .B abc).st = .ready ∧ (buffered .B abc).buf.length ≤ Variant.B.bb ∧
    (1#4).toNat < (ready .B).ctx.length ∧ (0#4).toNat < (ready .B).ctx.length := ⟨rfl, rfl, by decide, by decide, by decide⟩
/-- DoutHoldsTheDigestThenZeros and SerializeIsLittleEndian: the longest digest, the last byte of a word. -/
theorem test_witness_dout : (zeros 64).length ≤ 64 ∧ 3 < 4 ∧ 7 < Variant.B.wb ∧ 3 < Variant.S.wb := by decide
/-- FinalIsIdempotent: a FINAL of a READY context. -/
theorem test_witness_finalIdempotent : ∃ s', exec (.final 0) (on (ready .B)) = .next s' := ⟨_, runs (.final 0) (ready .B)⟩
/-- CommandFrame, ErrorCodesOfEachCommand: an UPDATE; LatchedFieldsStay: its context. -/
theorem test_witness_frame : exec (Command.update 3 0).toInstr (on (ready .B)) = .next (on ((ready .B).run (.update 3 0))) ∧
    (ready .B).ctx[(0#4).toNat]? = some (buffered .B abc) ∧ (∃ r', ((ready .B).run (.update 3 0)).ctx[(0#4).toNat]? = some r' ∧ r'.st = .ready) ∧
    Command.update 3 0 ≠ .init 0 ∧ (∀ s, Command.update 3 0 ≠ .clone 0 s) :=
  ⟨runs _ _, rfl, context_of (by decide +kernel), by decide, by decide⟩
/-- ErrorCodesOfEachCommand, where the two range checks of CLONE meet: only the source is out of range. -/
theorem test_witness_codes : (ready .B).ctx.length ≤ (2#4).toNat ∧ ¬ (ready .B).ctx.length ≤ (1#4).toNat ∧
    exec (Command.clone 1 2).toInstr (on (ready .B)) = .next (on ((ready .B).run (.clone 1 2))) := ⟨by decide, by decide, runs _ _⟩
/-- ErrorsArePrecise, its first alternative: an ILLEGAL word. -/
theorem test_witness_precise : ∃ e' : Engine .B, exec (.wrCmd 0x00000005) (on (ready .B)) = .next ⟨.B, e', ⟨[], []⟩⟩ ∧ e'.status.err ≠ .ok :=
  ⟨_, writes _ _, by decide +kernel⟩
/-- ErrorsArePrecise, its second alternative: an INIT of an illegal configuration. -/
theorem test_witness_precise_config : ∃ e' : Engine .B,
    exec (.wrCmd 0x00000001) (on { ready .B with stage := { Staging.reset .B with cfg := #v[0x01010000, 0, 0, 0, 0] } }) = .next ⟨.B, e', ⟨[], []⟩⟩ ∧
    e'.status.err ≠ .ok := ⟨_, writes _ _, by decide +kernel⟩
/-- LifecycleChangesOnlyByThreeCommands: an INIT of an EMPTY context, a FINAL of a READY one, a CLONE of a READY one onto an EMPTY one. -/
theorem test_witness_lifecycle : ∀ x ∈ [(Command.init 1, 1#4, Lifecycle.empty, Lifecycle.ready), (.final 0, 0, .ready, .final), (.clone 1 0, 1, .empty, .ready)],
    exec x.1.toInstr (on (ready .B)) = .next (on ((ready .B).run x.1)) ∧ (∃ r, (ready .B).ctx[x.2.1.toNat]? = some r ∧ r.st = x.2.2.1) ∧
    (∃ r', ((ready .B).run x.1).ctx[x.2.1.toNat]? = some r' ∧ r'.st = x.2.2.2) ∧ x.2.2.2 ≠ x.2.2.1 := by
  have h : ∀ x ∈ [(Command.init 1, 1#4, Lifecycle.empty, Lifecycle.ready), (.final 0, 0, .ready, .final), (.clone 1 0, 1, .empty, .ready)],
      ((ready .B).ctx[x.2.1.toNat]?).map (fun r => r.st) = some x.2.2.1 ∧
      (((ready .B).run x.1).ctx[x.2.1.toNat]?).map (fun r => r.st) = some x.2.2.2 ∧ x.2.2.2 ≠ x.2.2.1 := by decide +kernel
  exact fun x hx => ⟨runs _ _, context_of (h x hx).1, context_of (h x hx).2.1, (h x hx).2.2⟩
/-- StepKeepsTheInvariant: a machine of one context right after reset meets the invariant and goes on. -/
theorem test_witness_invariant : (State.resetOf .S 1).Inv ∧ ∃ s', step ((State.resetOf .S 1).place .reset) = .next s' := by
  refine ⟨⟨by decide, by decide, ?_, by decide, ?_, by decide⟩, _, rfl⟩
  · intro c hc
    rw [List.eq_of_mem_replicate hc]; rfl
  · intro p _
    have h : ∀ p < 64, doutByte (Vector.replicate 16 0) p = 0 := by decide +kernel
    by_cases hp : p < 64
    · exact h p hp
    · have : (bankBytes (Vector.replicate 16 (0 : Word32))).length = 64 := by decide +kernel
      show (bankBytes (Vector.replicate 16 0)).getD p 0 = 0
      rw [List.getD_eq_getElem?_getD, List.getElem?_eq_none (by omega)]; rfl
/-- ConformingHostIsNeverRefused: a write of CMD, a reset and a read are pending. -/
theorem test_witness_conforming : ({ on (ready .B) with bus := ⟨[.access ⟨0x08, 4, some 3⟩, .resetInCmd 1, .access ⟨0xFC, 4, none⟩], []⟩ } : State).conforming = true := by decide
/-- EmptyContextIsNeverRead: a CLONE from the EMPTY context, with another EMPTY record. -/
theorem test_witness_empty : let r := { Ctx.emptyRecord .B with t := 5 }
    let e1 := { ready .B with ctx := (ready .B).ctx.set (1#4).toNat (Ctx.emptyRecord .B) }
    let e2 := { ready .B with ctx := (ready .B).ctx.set (1#4).toNat r }
    (1#4).toNat < (ready .B).ctx.length ∧ (Ctx.emptyRecord .B).st = .empty ∧ r.st = .empty ∧
    exec (Command.clone 0 1).toInstr (on e1) = .next (on (e1.run (.clone 0 1))) ∧ exec (Command.clone 0 1).toInstr (on e2) = .next (on (e2.run (.clone 0 1))) :=
  ⟨by decide, rfl, rfl, runs _ _, runs _ _⟩
/-- ContextsNeverInterfere: engines that differ in context 1 and in STATUS. -/
theorem test_witness_interfere : let e1 := ready .B
    let e2 := { ready .B with ctx := [buffered .B abc, finished .B abc], status := ⟨.state, .final, 9⟩ }
    e1.stage = e2.stage ∧ e1.ctx.length = e2.ctx.length ∧ e1.ctx[(0#4).toNat]? = e2.ctx[(0#4).toNat]? ∧
    exec (Command.update 1 0).toInstr (on e1) = .next (on (e1.run (.update 1 0))) ∧ exec (Command.update 1 0).toInstr (on e2) = .next (on (e2.run (.update 1 0))) :=
  ⟨rfl, rfl, rfl, runs _ _, runs _ _⟩
/-- InterleavingOfContextsIsFree: an INIT of context 1 and an UPDATE of context 0. -/
theorem test_witness_interleaving : (0#4) ≠ 1 ∧ ∃ e1 e12 e2 e21 : Engine .B,
    exec (Command.update 1 0).toInstr (on (ready .B)) = .next (on e1) ∧ exec (Command.init 1).toInstr (on e1) = .next (on e12) ∧
    exec (Command.init 1).toInstr (on (ready .B)) = .next (on e2) ∧ exec (Command.update 1 0).toInstr (on e2) = .next (on e21) :=
  ⟨by decide, _, _, _, _, runs _ _, runs _ _, runs _ _, runs _ _⟩
/-- InterleavingOfContextsIsFree: a CLONE of context 2 onto context 1 and an UPDATE of context 0, where the source is READY. -/
theorem test_witness_interleaving_clone : let e : Engine .B := { fresh .B with ctx := [buffered .B abc, Ctx.emptyRecord .B, buffered .B abc] }
    (0#4) ≠ 1 ∧ (2#4) ≠ 0 ∧ (e.ctx[(2#4).toNat]?).map (fun r => r.st) = some .ready ∧ ∃ e1 e12 e2 e21 : Engine .B,
    exec (Command.update 1 0).toInstr (on e) = .next (on e1) ∧ exec (Command.clone 1 2).toInstr (on e1) = .next (on e12) ∧
    exec (Command.clone 1 2).toInstr (on e) = .next (on e2) ∧ exec (Command.update 1 0).toInstr (on e2) = .next (on e21) :=
  ⟨by decide, by decide, rfl, _, _, _, _, runs _ _, runs _ _, runs _ _, runs _ _⟩
/-- UnusedDinBytesAreNotRead: registers that agree in the first three bytes only. -/
theorem test_witness_din : ∀ p, p < (3#4).toNat → (bankBytes #v[0xff636261#32, 0xffffffff#32]).getD p 0 = (bankBytes #v[0x00636261#32, 0#32]).getD p 0 := by decide
/-- BankBytesPastTheLengthsAreNotRead: no key, an eight-byte salt, a two-byte personalization. -/
theorem test_witness_banks : let g := treeStage 0x03020020 0x02084001
    (∀ p, p < (g.cfg[0].extractLsb' 8 8).toNat → (bankBytes (Vector.replicate 16 (1 : Word32))).getD p 0 = (bankBytes g.key).getD p 0) ∧
    (∀ p, p < (g.cfg[4].extractLsb' 16 8).toNat → (bankBytes #v[0x544c4153#32, 0x746c6173#32, 1#32, 1#32]).getD p 0 = (bankBytes g.salt).getD p 0) ∧
    (∀ p, p < (g.cfg[4].extractLsb' 24 8).toNat → (bankBytes #v[0xffff656d#32, 1#32, 1#32, 1#32]).getD p 0 = (bankBytes g.pers).getD p 0) := by decide
/-- HalfRoundOrderIsFree: the diagonal half in reverse. -/
theorem test_witness_halfRound : ([7, 6, 5, 4] : List (Fin 8)).Perm [4, 5, 6, 7] := by decide
/-- SchedulerComputesTheRounds: the last MIX step of each variant, and the first. WorkingVectorInitialization: the last byte of a word. -/
theorem test_witness_scheduler : 95 < 8 * Variant.B.rounds ∧ 79 < 8 * Variant.S.rounds ∧ 0 < 8 * Variant.B.rounds := by decide
/-- ChunkingIndependence: a full buffer. AbsorbedStreamPosition: a new context. -/
theorem test_witness_absorb : (buffered .S (zeros 64)).buf.length ≤ Variant.S.bb ∧ (newCtx .S).buf = [] ∧ (newCtx .S).t = 0 := ⟨by decide, rfl, rfl⟩

end Sys2Proof.Tests
end

section
/-! ### What one event does to the machine -/

namespace Sys2Proof.Machine

variable {V : Variant}

/-- What an instruction can do: it runs one command on the engine, or at most it stores staging registers and answers a read
(20_memory.md R37). -/
theorem exec_cases (i : Instr) (e : Engine V) (b : Bus) :
    (∃ k, exec i ⟨V, e, b⟩ = .next ⟨V, e.run k, b⟩) ∨
    ∃ g b', exec i ⟨V, e, b⟩ = .next ⟨V, { e with stage := g }, b'⟩ := by
  cases i with
  | nop => exact .inl ⟨.nop, rfl⟩
  | init c => exact .inl ⟨.init c, rfl⟩
  | update len c => exact .inl ⟨.update len c, rfl⟩
  | final c => exact .inl ⟨.final c, rfl⟩
  | clone d s => exact .inl ⟨.clone d s, rfl⟩
  | illegal f => exact .inl ⟨.illegal f, rfl⟩
  | wrCmd w => exact .inl ⟨decodeCommand w, by rw [exec_wrCmd, exec_command]⟩
  | reserved a wdata => cases wdata <;> exact .inr ⟨_, _, rfl⟩
  | _ => exact .inr ⟨_, _, rfl⟩

/-- What a step that goes on can have done: nothing, an instruction, or a reset, which keeps the variant and `NCTX`. -/
theorem step_cases {e : Engine V} {b : Bus} {s' : State} (h : step ⟨V, e, b⟩ = .next s') :
    s' = ⟨V, e, b⟩ ∨ (∃ i b', exec i ⟨V, e, b'⟩ = .next s') ∨ ∃ b', s' = ⟨V, Engine.reset V e.ctx.length, b'⟩ := by
  obtain ⟨pending, reads⟩ := b
  rcases pending with - | ⟨a | - | w, rest⟩
  · exact .inl (Host.Outcome.next.inj h).symm
  · cases ha : decodeAccess a with
    | ok i => exact .inr (.inl ⟨i, ⟨rest, reads⟩, by simpa [step, fetch, ha] using h⟩)
    | error r => simp [step, fetch, ha] at h
  · exact .inr (.inr ⟨_, (Host.Outcome.next.inj h).symm⟩)
  · exact .inr (.inr ⟨_, (Host.Outcome.next.inj h).symm⟩)

end Sys2Proof.Machine
end

section
/-! ### The digest registers -/

namespace Sys2Proof.Machine

/-- DOUT holds the digest's bytes in order, and 0 past its end (10_state.md R31, 43_host_commands.md R105). -/
theorem doutByte_doutWords {d : List Byte} (hd : d.length ≤ 64) (p : Nat) : doutByte (doutWords d) p = d.getD p 0 := by
  by_cases hp : p < 64
  · obtain ⟨k, i, hk, hi, rfl⟩ : ∃ k i, k < 16 ∧ i < 4 ∧ p = 4 * k + i := ⟨p / 4, p % 4, by omega, by omega, by omega⟩
    have hz : (d ++ zeros (64 - d.length))[4 * k + i]?.getD 0 = d.getD (4 * k + i) 0 := by
      by_cases h : 4 * k + i < d.length
      · rw [List.getElem?_append_left h, List.getD_eq_getElem?_getD]
      · rw [List.getElem?_append_right (by omega), List.getD_eq_default _ _ (by omega)]
        simp only [zeros, List.getElem?_replicate]
        split <;> rfl
    rw [doutByte, getD_bankBytes _ _ _ hk hi, doutWords, Vector.getElem_ofFn, regOfBytes, leNat_byte _ _ _ (by omega),
      List.getD_eq_getElem?_getD, getElem?_slice _ _ _ _ (by omega), hz]
  · rw [doutByte, List.getD_eq_default _ _ (by simp; omega), List.getD_eq_default _ _ (by omega)]

/-- DOUT at reset reads as 0 everywhere (70_reset_and_hazards.md R147). -/
theorem doutByte_replicate_zero (p : Nat) : doutByte (Vector.replicate 16 0) p = 0 := by
  have h : Vector.replicate 16 0 = doutWords [] := by decide
  rw [h, doutByte_doutWords (by simp), List.getD_nil]

end Sys2Proof.Machine
end

section
/-! ### The round index of the datapath -/

namespace Sys2Proof.Machine

variable {V : Variant}

/-- A MIX step goes to the next round only while there is one (41_compression.md R70). -/
theorem mixStep_r_lt {dp : Datapath V} (h : dp.r < V.rounds) : dp.mixStep.r < V.rounds := by
  obtain ⟨v, m, phase, r, j⟩ := dp
  cases phase with
  | load => exact h
  | fold => exact h
  | mix =>
    simp only [Datapath.mixStep]
    split_ifs with hj hr
    · exact h
    · show r + 1 < V.rounds
      omega
    · exact h

theorem mixSteps_r_lt (n : Nat) {dp : Datapath V} (h : dp.r < V.rounds) : (Datapath.mixSteps n dp).r < V.rounds := by
  induction n with
  | zero => exact h
  | succ n ih => rw [mixSteps_succ]; exact mixStep_r_lt ih

/-- A compression leaves the round index below `R`, whatever it was. -/
theorem compressInto_r_lt (c : Ctx V) (block : List Byte) (f0 f1 : Word V) : (compressInto c block f0 f1).dp.r < V.rounds :=
  mixSteps_r_lt (8 * V.rounds) (dp := Datapath.load c.h block c.t f0 f1) rounds_pos

theorem compressOldest_r_lt (x : Work V) : (compressOldest x).dp.r < V.rounds :=
  compressInto_r_lt (advance V.bb x.c) (x.c.buf.take V.bb) 0 0

theorem drain_r_lt (n : Nat) {x : Work V} (h : x.dp.r < V.rounds) : (drain n x).dp.r < V.rounds := by
  induction n generalizing x with
  | zero => exact h
  | succ n ih =>
    by_cases hb : V.bb < x.c.buf.length
    · rw [drain_succ_of_lt n x hb]; exact ih (compressOldest_r_lt x)
    · rw [drain_of_le _ x (by omega)]; exact h

theorem absorb_r_lt {x : Work V} (d : List Byte) (h : x.dp.r < V.rounds) : (absorb x d).dp.r < V.rounds := drain_r_lt _ h

theorem construct_r_lt (C : HashConfig) {dp : Datapath V} (h : dp.r < V.rounds) : (construct C dp).dp.r < V.rounds := by
  unfold construct
  split
  · exact h
  · exact absorb_r_lt _ h

theorem finalizeReady_r_lt (c : Ctx V) : (finalizeReady c).dp.r < V.rounds := compressInto_r_lt _ _ _ _

end Sys2Proof.Machine
end

section
/-! ### The stream position of a context -/

namespace Sys2Proof.Machine

variable {V : Variant}

/-- `n` bytes have come in and `k` blocks of them are compressed, never the last byte: the stream position with the number of blocks
open, which the loop of absorb keeps at each turn (42_streaming.md R89, R91). -/
def Ctx.Streamed (c : Ctx V) (n k : Nat) : Prop :=
  c.buf.length + V.bb * k = n ∧ c.t = BitVec.ofNat (2 * V.w) (V.bb * k) ∧ (k = 0 ∨ 0 < c.buf.length)

/-- `blocksDone n` whole blocks are within `n` bytes, the bytes left fit in one block, and after a block some byte is left. -/
theorem blocksDone_bounds (n : Nat) :
    V.bb * blocksDone V n ≤ n ∧ n ≤ V.bb * (blocksDone V n + 1) ∧ (blocksDone V n = 0 ∨ V.bb * blocksDone V n < n) := by
  cases V <;> simp only [blocksDone, Variant.bb] <;> omega

/-- The bounds of `blocksDone_bounds` determine it. -/
theorem eq_blocksDone {n k : Nat} (h : n ≤ V.bb * (k + 1)) (h' : k = 0 ∨ V.bb * k < n) : k = blocksDone V n := by
  cases V <;> simp only [blocksDone, Variant.bb] at h h' ⊢ <;> omega

theorem Ctx.absorbed.streamed {c : Ctx V} {n : Nat} (h : c.absorbed n) : c.Streamed n (blocksDone V n) := by
  obtain ⟨hlen, ht⟩ := h
  obtain ⟨h1, -, h3⟩ := blocksDone_bounds (V := V) n
  exact ⟨by omega, ht, by omega⟩

theorem Ctx.Streamed.absorbed {c : Ctx V} {n k : Nat} (h : c.Streamed n k) (hle : c.buf.length ≤ V.bb) : c.absorbed n := by
  obtain ⟨hn, ht, hk⟩ := h
  obtain rfl : k = blocksDone V n := eq_blocksDone (by rw [Nat.mul_succ]; omega) (by omega)
  exact ⟨by omega, ht⟩

/-- New bytes at the end of the buffer come in, and no block is compressed. -/
theorem Ctx.Streamed.append {c : Ctx V} {n k : Nat} (h : c.Streamed n k) (d : List Byte) :
    ({ c with buf := c.buf ++ d } : Ctx V).Streamed (n + d.length) k := by
  obtain ⟨hn, ht, hk⟩ := h
  refine ⟨?_, ht, ?_⟩ <;> simp only [List.length_append] <;> omega

/-- A turn of the loop moves one block from the buffer to the counter (42_streaming.md R89). -/
theorem Ctx.Streamed.compressOldest {x : Work V} {n k : Nat} (h : x.c.Streamed n k) (hlt : V.bb < x.c.buf.length) :
    (compressOldest x).c.Streamed n (k + 1) := by
  obtain ⟨hn, ht, -⟩ := h
  refine ⟨?_, ?_, .inr ?_⟩
  · rw [compressOldest_buf, List.length_drop, Nat.mul_succ]; omega
  · rw [compressOldest_t, ht, Nat.mul_succ, BitVec.ofNat_add]
  · rw [compressOldest_buf, List.length_drop]; omega

theorem Ctx.Streamed.drain (m : Nat) {x : Work V} {n k : Nat} (h : x.c.Streamed n k) : ∃ k', (drain m x).c.Streamed n k' := by
  induction m generalizing x k with
  | zero => exact ⟨k, h⟩
  | succ m ih =>
    by_cases hb : V.bb < x.c.buf.length
    · rw [drain_succ_of_lt m x hb]; exact ih (h.compressOldest hb)
    · rw [drain_of_le _ x (by omega)]; exact ⟨k, h⟩

/-- absorb of `d` brings the stream position from `n` to `n + len(d)` bytes, whatever the pieces were (10_state.md R23.3). -/
theorem Ctx.absorbed.absorb {x : Work V} {n : Nat} (h : x.c.absorbed n) (d : List Byte) :
    (absorb x d).c.absorbed (n + d.length) := by
  obtain ⟨k, hk⟩ := Ctx.Streamed.drain (x.c.buf ++ d).length (x := ⟨{ x.c with buf := x.c.buf ++ d }, x.dp⟩) (h.streamed.append d)
  exact hk.absorbed (absorb_buf_le x d)

end Sys2Proof.Machine
end

section
/-! ### The invariant of a context -/

namespace Sys2Proof.Machine

variable {V : Variant}

theorem nnMax_le : V.nnMax ≤ 64 := by cases V <;> decide

theorem Ctx.inv_emptyRecord : (Ctx.emptyRecord V).Inv := rfl

theorem Ctx.inv_iff_of_ready {c : Ctx V} (hs : c.st = .ready) :
    c.Inv ↔ c.f0 = 0 ∧ c.f1 = 0 ∧ 1 ≤ c.nn.toNat ∧ c.nn.toNat ≤ V.nnMax ∧ ∃ n, c.absorbed n := by
  rw [Ctx.Inv, hs]

theorem Ctx.inv_iff_of_final {c : Ctx V} (hs : c.st = .final) :
    c.Inv ↔ c.buf = [] ∧ c.f0 = ones V ∧ c.f1 = lastNodeFlag V c.ln ∧ 1 ≤ c.nn.toNat ∧ c.nn.toNat ≤ V.nnMax ∧
      c.dig.length = c.nn.toNat := by
  rw [Ctx.Inv, hs]

/-- A new context has absorbed no byte (42_streaming.md R85). -/
theorem freshCtx_inv {C : HashConfig} (h : C.valid V = true) : (freshCtx V C).Inv := by
  obtain ⟨⟨hnn, hnn'⟩, -⟩ := (valid_iff C).1 h
  refine (Ctx.inv_iff_of_ready rfl).2 ⟨rfl, rfl, hnn, hnn', 0, ?_⟩
  exact Ctx.Streamed.absorbed (k := 0) ⟨rfl, by simp [freshCtx], .inl rfl⟩ (Nat.zero_le _)

/-- absorb keeps the invariant of a READY context (42_streaming.md R89). -/
theorem absorb_inv {x : Work V} (hs : x.c.st = .ready) (h : x.c.Inv) (d : List Byte) : (absorb x d).c.Inv := by
  obtain ⟨hf0, hf1, hnn, hnn', n, hn⟩ := (Ctx.inv_iff_of_ready hs).1 h
  obtain ⟨ks, k0, k1, knn, -, -⟩ := absorb_keeps x d
  refine (Ctx.inv_iff_of_ready (ks.trans hs)).2 ⟨k0.trans hf0, k1.trans hf1, ?_, ?_, _, hn.absorb d⟩
  · rwa [knn]
  · rwa [knn]

/-- INIT leaves a context that meets the invariant, with or without a key block (42_streaming.md R84, R85). -/
theorem construct_inv {C : HashConfig} (h : C.valid V = true) (dp : Datapath V) : (construct C dp).c.Inv := by
  unfold construct
  split
  · exact freshCtx_inv h
  · exact absorb_inv rfl (freshCtx_inv h) _

/-- FINAL of a READY context sets the flags by `ln`, empties the buffer and caches `nn` bytes (42_streaming.md R93, R96). -/
theorem finalizeReady_inv {c : Ctx V} (hs : c.st = .ready) (h : c.Inv) : (finalizeReady c).c.Inv := by
  obtain ⟨-, -, hnn, hnn', -⟩ := (Ctx.inv_iff_of_ready hs).1 h
  exact (Ctx.inv_iff_of_final rfl).2 ⟨rfl, rfl, rfl, hnn, hnn', finalizeReady_dig_length c hnn'⟩

/-- The cached digest of a FINAL context that meets the invariant fits in DOUT and DLEN. -/
theorem Ctx.Inv.dig_length_le {c : Ctx V} (h : c.Inv) (hs : c.st = .final) : c.dig.length ≤ V.nnMax := by
  obtain ⟨-, -, -, -, hnn, hdig⟩ := (Ctx.inv_iff_of_final hs).1 h
  omega

end Sys2Proof.Machine
end

section
/-! ### The invariant of an engine -/

namespace Sys2Proof.Machine

variable {V : Variant}

theorem Engine.Inv.of_getElem? {e : Engine V} (h : e.Inv) {i : Nat} {r : Ctx V} (hr : e.ctx[i]? = some r) : r.Inv := by
  obtain ⟨-, -, hctx, -⟩ := h
  exact hctx r (List.mem_of_getElem? hr)

theorem Engine.Inv.dp_r_lt {e : Engine V} (h : e.Inv) : e.dp.r < V.rounds := by
  obtain ⟨-, -, -, -, -, hdp⟩ := h
  exact hdp

/-- Writing a context that meets its own invariant, with a round index below `R`, keeps the engine's. -/
theorem Engine.Inv.putWork {e : Engine V} (h : e.Inv) (c : BitVec 4) {x : Work V} (hx : x.c.Inv) (hr : x.dp.r < V.rounds) :
    (e.putWork c x).Inv := by
  obtain ⟨h1, h16, hctx, hdlen, hdout, -⟩ := h
  refine ⟨?_, ?_, ?_, hdlen, hdout, hr⟩
  · simpa [Engine.nctx] using h1
  · simpa [Engine.nctx] using h16
  · intro a ha
    rcases List.mem_or_eq_of_mem_set ha with ha | rfl
    · exact hctx a ha
    · exact hx

theorem Engine.Inv.putCtx {e : Engine V} (h : e.Inv) (c : BitVec 4) {r : Ctx V} (hr : r.Inv) : (e.putCtx c r).Inv :=
  h.putWork c (x := ⟨r, e.dp⟩) hr h.dp_r_lt

/-- ERR and CSTATE are in no invariant. -/
theorem Engine.Inv.setStatus {e : Engine V} (h : e.Inv) (err : ErrCode) (cs : Lifecycle) : (e.setStatus err cs).Inv := h

theorem Engine.Inv.raise {e : Engine V} (h : e.Inv) (err : ErrCode) (cs : Lifecycle) : (e.raise err cs).Inv := h

theorem Engine.Inv.raiseIllegal {e : Engine V} (h : e.Inv) : e.raiseIllegal.Inv := h

theorem Engine.Inv.nop {e : Engine V} (h : e.Inv) : e.nop.Inv := h

/-- No invariant speaks of the staging registers. -/
theorem Engine.Inv.putStage {e : Engine V} (h : e.Inv) (g : Staging) : ({ e with stage := g } : Engine V).Inv := h

/-- A digest of at most `NN_MAX` bytes in DOUT, with its length in DLEN (10_state.md R31). -/
theorem Engine.Inv.putDigest {e : Engine V} (h : e.Inv) {d : List Byte} (hd : d.length ≤ V.nnMax) : (e.putDigest d).Inv := by
  obtain ⟨h1, h16, hctx, -, -, hdp⟩ := h
  have h64 : d.length ≤ 64 := hd.trans nnMax_le
  have hlen : (e.putDigest d).status.dlen.toNat = d.length := by
    rw [Engine.putDigest_dlen, BitVec.toNat_ofNat]; omega
  refine ⟨h1, h16, hctx, by rwa [hlen], fun p hp => ?_, hdp⟩
  rw [Engine.putDigest_dout, doutByte_doutWords h64, List.getD_eq_default _ _ (by omega)]

theorem Engine.inv_reset {n : Nat} (h1 : 1 ≤ n) (h16 : n ≤ 16) : (Engine.reset V n).Inv := by
  refine ⟨?_, ?_, ?_, Nat.zero_le _, fun p _ => doutByte_replicate_zero p, rounds_pos⟩
  · simpa [Engine.nctx, Engine.reset] using h1
  · simpa [Engine.nctx, Engine.reset] using h16
  · intro c hc
    rw [List.eq_of_mem_replicate hc]
    exact Ctx.inv_emptyRecord

theorem Engine.Inv.init {e : Engine V} (h : e.Inv) (c : BitVec 4) : (e.init c).Inv := by
  rcases Engine.init_cases c e with ⟨-, h'⟩ | ⟨-, hv, h'⟩ | ⟨-, -, h'⟩ <;> rw [h']
  · exact h.raiseIllegal
  · exact (h.putWork c (construct_inv hv _) (construct_r_lt _ h.dp_r_lt)).setStatus _ _
  · exact (h.putCtx c Ctx.inv_emptyRecord).raise _ _

theorem Engine.Inv.update {e : Engine V} (h : e.Inv) (len c : BitVec 4) : (e.update len c).Inv := by
  rcases Engine.update_cases len c e with ⟨-, h'⟩ | ⟨r, hr, ⟨-, h'⟩ | ⟨-, h'⟩ | ⟨hs, h'⟩⟩ <;> rw [h']
  · exact h.raiseIllegal
  · exact h.raise _ _
  · exact h.raise _ _
  · exact (h.putWork c (absorb_inv hs (h.of_getElem? hr) _) (absorb_r_lt _ h.dp_r_lt)).setStatus _ _

theorem Engine.Inv.final {e : Engine V} (h : e.Inv) (c : BitVec 4) : (e.final c).Inv := by
  rcases Engine.final_cases c e with ⟨-, h'⟩ | ⟨r, hr, ⟨-, h'⟩ | ⟨hs, h'⟩ | ⟨hs, h'⟩⟩ <;> rw [h']
  · exact h.raiseIllegal
  · exact h.raise _ _
  · have hy : (finalizeReady r).c.Inv := finalizeReady_inv hs (h.of_getElem? hr)
    exact ((h.putWork c hy (finalizeReady_r_lt r)).putDigest (hy.dig_length_le rfl)).setStatus _ _
  · exact (h.putDigest ((h.of_getElem? hr).dig_length_le hs)).setStatus _ _

theorem Engine.Inv.clone {e : Engine V} (h : e.Inv) (d s : BitVec 4) : (e.clone d s).Inv := by
  rcases Engine.clone_cases d s e with ⟨-, h'⟩ | ⟨-, r, hr, ⟨-, h'⟩ | ⟨-, h'⟩⟩ <;> rw [h']
  · exact h.raiseIllegal
  · exact h.raise _ _
  · exact (h.putCtx d (h.of_getElem? hr)).setStatus _ _

/-- Every command keeps the engine's invariant. -/
theorem Engine.Inv.run {e : Engine V} (h : e.Inv) (k : Command) : (e.run k).Inv := by
  cases k with
  | nop => exact h.nop
  | init c => exact h.init c
  | update len c => exact h.update len c
  | final c => exact h.final c
  | clone d s => exact h.clone d s
  | illegal f => exact h.raiseIllegal

/-- Every instruction keeps the machine's invariant. -/
theorem exec_keeps_inv {i : Instr} {s s' : State} (h : s.Inv) (hx : exec i s = .next s') : s'.Inv := by
  obtain ⟨V, e, b⟩ := s
  rcases exec_cases i e b with ⟨k, hk⟩ | ⟨g, b', hg⟩
  · obtain rfl := Host.Outcome.next.inj (hk.symm.trans hx)
    exact Engine.Inv.run h k
  · obtain rfl := Host.Outcome.next.inj (hg.symm.trans hx)
    exact Engine.Inv.putStage h g

/-- Settles O44: an idle step changes nothing, an instruction is a command or an access, and a reset keeps `NCTX`. -/
theorem stepKeepsTheInvariant : Obligations.StepKeepsTheInvariant := by
  unfold Obligations.StepKeepsTheInvariant
  rintro ⟨V, e, b⟩ s' h hstep
  rcases step_cases hstep with rfl | ⟨i, b', hx⟩ | ⟨b', rfl⟩
  · exact h
  · exact exec_keeps_inv (s := ⟨V, e, b'⟩) h hx
  · obtain ⟨h1, h16, -⟩ := h
    exact Engine.inv_reset h1 h16

end Sys2Proof.Machine
end

section
/-! ### What a command makes of one context -/

namespace Sys2Proof.Machine

variable {V : Variant}

/-- What each command can make of context `d`, which holds `r` (10_state.md R18, R22): it keeps it, or it writes it in one of five
ways. -/
inductive Engine.CtxChange (e : Engine V) (d : BitVec 4) (r : Ctx V) : Command → Ctx V → Prop
  | keep (k : Command) : CtxChange e d r k r
  | construct (hv : (snapshot e.stage).valid V = true) :
      CtxChange e d r (.init d) (Machine.construct (snapshot e.stage) e.dp).c
  | clear (hv : (snapshot e.stage).valid V = false) : CtxChange e d r (.init d) (Ctx.emptyRecord V)
  | absorb (len : BitVec 4) (hs : r.st = .ready) :
      CtxChange e d r (.update len d) (Machine.absorb ⟨r, e.dp⟩ (updateData e.stage len)).c
  | finalize (hs : r.st = .ready) : CtxChange e d r (.final d) (finalizeReady r).c
  | copy (s : BitVec 4) (rs : Ctx V) (hrs : e.ctx[s.toNat]? = some rs) : CtxChange e d r (.clone d s) rs

/-- A context after a write of context `c` is the written one, and then it is `c`, or what it was. -/
theorem getElem?_set_context {l : List (Ctx V)} {c d : BitVec 4} {x r r' : Ctx V} (hr : l[d.toNat]? = some r)
    (hr' : (l.set c.toNat x)[d.toNat]? = some r') : (c = d ∧ r' = x) ∨ r' = r := by
  by_cases h : c = d
  · subst h
    rw [List.getElem?_set_self (List.getElem?_eq_some_iff.mp hr).1] at hr'
    exact .inl ⟨rfl, (Option.some.inj hr').symm⟩
  · rw [List.getElem?_set_ne (fun hn => h (BitVec.eq_of_toNat_eq hn)), hr] at hr'
    exact .inr (Option.some.inj hr').symm

theorem Engine.CtxChange.of_ctx_eq {e e' : Engine V} {d : BitVec 4} {r r' : Ctx V} (k : Command) (h : e'.ctx = e.ctx)
    (hr : e.ctx[d.toNat]? = some r) (hr' : e'.ctx[d.toNat]? = some r') : e.CtxChange d r k r' := by
  rw [h, hr] at hr'
  obtain rfl := Option.some.inj hr'
  exact .keep k

/-- Every command changes a context as `CtxChange` says. -/
theorem Engine.ctxChange_run {e : Engine V} {k : Command} {d : BitVec 4} {r r' : Ctx V} (hr : e.ctx[d.toNat]? = some r)
    (hr' : (e.run k).ctx[d.toNat]? = some r') : e.CtxChange d r k r' := by
  cases k with
  | nop => exact .of_ctx_eq _ rfl hr hr'
  | illegal f => exact .of_ctx_eq _ rfl hr hr'
  | init c =>
    rcases Engine.init_cases c e with ⟨-, h⟩ | ⟨-, hv, h⟩ | ⟨-, hv, h⟩ <;> rw [Engine.run, h] at hr'
    · exact .of_ctx_eq _ rfl hr hr'
    · obtain ⟨rfl, rfl⟩ | rfl := getElem?_set_context hr hr'
      exacts [.construct hv, .keep _]
    · obtain ⟨rfl, rfl⟩ | rfl := getElem?_set_context hr hr'
      exacts [.clear hv, .keep _]
  | update len c =>
    rcases Engine.update_cases len c e with ⟨-, h⟩ | ⟨x, hx, ⟨-, h⟩ | ⟨-, h⟩ | ⟨hs, h⟩⟩ <;> rw [Engine.run, h] at hr'
    · exact .of_ctx_eq _ rfl hr hr'
    · exact .of_ctx_eq _ rfl hr hr'
    · exact .of_ctx_eq _ rfl hr hr'
    · obtain ⟨rfl, rfl⟩ | rfl := getElem?_set_context hr hr'
      · obtain rfl := Option.some.inj (hr.symm.trans hx)
        exact .absorb len hs
      · exact .keep _
  | final c =>
    rcases Engine.final_cases c e with ⟨-, h⟩ | ⟨x, hx, ⟨-, h⟩ | ⟨hs, h⟩ | ⟨-, h⟩⟩ <;> rw [Engine.run, h] at hr'
    · exact .of_ctx_eq _ rfl hr hr'
    · exact .of_ctx_eq _ rfl hr hr'
    · obtain ⟨rfl, rfl⟩ | rfl := getElem?_set_context hr hr'
      · obtain rfl := Option.some.inj (hr.symm.trans hx)
        exact .finalize hs
      · exact .keep _
    · exact .of_ctx_eq _ rfl hr hr'
  | clone c s =>
    rcases Engine.clone_cases c s e with ⟨-, h⟩ | ⟨-, x, hx, ⟨-, h⟩ | ⟨-, h⟩⟩ <;> rw [Engine.run, h] at hr'
    · exact .of_ctx_eq _ rfl hr hr'
    · exact .of_ctx_eq _ rfl hr hr'
    · obtain ⟨rfl, rfl⟩ | rfl := getElem?_set_context hr hr'
      exacts [.copy s _ hx, .keep _]

/-- INIT of a valid configuration leaves its context READY, with or without a key block (42_streaming.md R85). -/
@[simp] theorem construct_st (C : HashConfig) (dp : Datapath V) : (construct C dp).c.st = .ready := by
  unfold construct
  split
  · rfl
  · exact (absorb_keeps _ _).1

/-- Settles O42: the only writes that change `st` are those of INIT, the first FINAL and CLONE. -/
theorem lifecycleChangesOnlyByThreeCommands : Obligations.LifecycleChangesOnlyByThreeCommands := by
  unfold Obligations.LifecycleChangesOnlyByThreeCommands
  intro k V e e' b b' d r r' hx hr hr' hne
  obtain ⟨rfl, -⟩ := exec_command_inv hx
  cases Engine.ctxChange_run hr hr' with
  | keep => exact absurd rfl hne
  | construct hv => exact .inl ⟨rfl, by rw [construct_st, if_pos hv]⟩
  | clear hv => exact .inl ⟨rfl, by rw [if_neg (by simp [hv])]; rfl⟩
  | absorb len hs => exact absurd (absorb_keeps _ _).1 hne
  | finalize hs => exact .inr (.inl ⟨rfl, hs, rfl⟩)
  | copy s rs hrs => exact .inr (.inr ⟨s, _, rfl, hrs, rfl⟩)

/-- Settles O43: beside INIT and CLONE a context is written by UPDATE, which keeps the latched fields, and by the first FINAL, which
keeps `nn` and `ln`. -/
theorem latchedFieldsStay : Obligations.LatchedFieldsStay := by
  unfold Obligations.LatchedFieldsStay
  intro k V e e' b b' d r r' hx hr hr' hinit hclone
  obtain ⟨rfl, -⟩ := exec_command_inv hx
  cases Engine.ctxChange_run hr hr' with
  | keep => exact ⟨rfl, rfl, fun h => absurd rfl h⟩
  | construct => exact absurd rfl hinit
  | clear => exact absurd rfl hinit
  | absorb len hs =>
    obtain ⟨-, -, -, hnn, hln, hdig⟩ := absorb_keeps ⟨r, e.dp⟩ (updateData e.stage len)
    exact ⟨hnn, hln, fun h => absurd hdig h⟩
  | finalize hs => exact ⟨rfl, rfl, fun _ => ⟨rfl, hs⟩⟩
  | copy s => exact absurd rfl (hclone s)

end Sys2Proof.Machine
end

section
/-! ### Offsets of the window -/

namespace Sys2Proof

/-- The staging registers (10_state.md R25). -/
def Reg.Staged : Reg → Bool
  | .id => false
  | .status => false
  | .cmd => false
  | .din _ => true
  | .cfg _ => true
  | .key _ => true
  | .salt _ => true
  | .pers _ => true
  | .dout _ => false
  | .reserved => false

/-- The staging registers stand at 0x10 to 0x14, 0x20 to 0x34 and 0x40 to 0x9C (20_memory.md R36). -/
theorem staged_regAt_iff : ∀ a : BitVec 8, a.toNat % 4 = 0 → ((regAt a).Staged = true ↔
    (0x10 ≤ a.toNat ∧ a.toNat < 0x18) ∨ (0x20 ≤ a.toNat ∧ a.toNat < 0x38) ∨ (0x40 ≤ a.toNat ∧ a.toNat < 0xA0)) := by
  decide

theorem regAt_eq_cmd_iff : ∀ a : BitVec 8, a.toNat % 4 = 0 → (regAt a = .cmd ↔ a = 0x08) := by decide

theorem regAt_eq_cfg5_iff : ∀ a : BitVec 8, a.toNat % 4 = 0 → (regAt a = .cfg 5 ↔ a = 0x34) := by decide

/-- The read that an aligned offset decodes to is encoded with that offset (30_encoding.md R41). -/
theorem encode_decodeRead : ∀ a : BitVec 8, a.toNat % 4 = 0 → encode (decodeRead a) = readForm a := by decide

/-- A staging register stands at one offset only. -/
theorem eq_of_regAt_eq_of_staged {a a' : BitVec 8} (ha : a.toNat % 4 = 0) (ha' : a'.toNat % 4 = 0) (h : regAt a' = regAt a)
    (hs : (regAt a).Staged = true) : a' = a := by
  have hread : decodeRead a' = decodeRead a := by
    rw [decodeRead, decodeRead, h]
    cases hreg : regAt a with
    | reserved => rw [hreg] at hs; cases hs
    | _ => rfl
  have hform : readForm a' = readForm a := by rw [← encode_decodeRead a' ha', hread, encode_decodeRead a ha]
  simpa [readForm] using hform

end Sys2Proof
end

section
/-! ### Stores into the staging registers -/

namespace Sys2Proof.Machine

variable {V : Variant}

/-- What a write of `v` to a register other than CMD stores: all of `v`, its bit 0 in CFG5, nothing outside the staging registers
(43_host_commands.md R111 to R119). -/
def Staging.store (g : Staging) (v : Word32) : Reg → Staging
  | .id => g
  | .status => g
  | .cmd => g
  | .din k => { g with din := g.din.set k v }
  | .cfg k => if h : k.val < 5 then { g with cfg := g.cfg.set k.val v } else { g with cfg5 := v.extractLsb' 0 1 }
  | .key k => { g with key := g.key.set k v }
  | .salt k => { g with salt := g.salt.set k v }
  | .pers k => { g with pers := g.pers.set k v }
  | .dout _ => g
  | .reserved => g

/-- The engine after a write of `v` to a register other than CMD. -/
def Engine.storeReg (e : Engine V) (v : Word32) (reg : Reg) : Engine V := { e with stage := e.stage.store v reg }

theorem exec_writeOf (a : BitVec 8) (v : Word32) {reg : Reg} (h : reg ≠ .cmd) (e : Engine V) (b : Bus) :
    exec (writeOf a v reg) ⟨V, e, b⟩ = .next ⟨V, e.storeReg v reg, b⟩ := by
  cases reg with
  | cmd => exact absurd rfl h
  | cfg k =>
    by_cases hk : k.val < 5
    · simp only [writeOf, Engine.storeReg, Staging.store, hk, dite_true]; rfl
    · simp only [writeOf, Engine.storeReg, Staging.store, hk, dite_false]; rfl
  | _ => rfl

/-- A write of a register that is no staging register is ignored (43_host_commands.md R119, R120). -/
theorem Engine.storeReg_of_not_staged (e : Engine V) (v : Word32) {reg : Reg} (h : reg.Staged = false) :
    e.storeReg v reg = e := by
  cases reg with
  | din k => cases h
  | cfg k => cases h
  | key k => cases h
  | salt k => cases h
  | pers k => cases h
  | _ => rfl

theorem extractLsb'_zero_one_setWidth (v : Word32) : (v.extractLsb' 0 1).setWidth 32 = v &&& 1 := by
  apply BitVec.eq_of_toNat_eq
  have h : v.toNat % 2 < 4294967296 := by omega
  simpa [Nat.and_one_is_mod] using h

theorem Staging.cfgWord_store_same (g : Staging) (v : Word32) (k : Fin 6) :
    (g.store v (.cfg k)).cfgWord k = if k = 5 then v &&& 1 else v := by
  by_cases hk : k.val < 5
  · have hne : k ≠ 5 := by rintro rfl; exact absurd hk (by decide)
    simp [Staging.store, Staging.cfgWord, hk, hne]
  · obtain rfl : k = 5 := by omega
    exact extractLsb'_zero_one_setWidth v

theorem Staging.cfgWord_store_of_ne (g : Staging) (v : Word32) {k k' : Fin 6} (h : k' ≠ k) :
    (g.store v (.cfg k)).cfgWord k' = g.cfgWord k' := by
  have hne : k.val ≠ k'.val := fun hn => h (Fin.ext hn.symm)
  by_cases hk : k.val < 5 <;> by_cases hk' : k'.val < 5
  · simp [Staging.store, Staging.cfgWord, hk, hk', hne]
  · simp [Staging.store, Staging.cfgWord, hk, hk']
  · simp [Staging.store, Staging.cfgWord, hk, hk']
  · omega

/-- A staging register reads as the value last written to it, CFG5 as its bit 0 (43_host_commands.md R112, R115, R117). -/
theorem Engine.readReg_storeReg_same (e : Engine V) (v : Word32) {reg : Reg} (h : reg.Staged = true) :
    (e.storeReg v reg).readReg reg = if reg = .cfg 5 then v &&& 1 else v := by
  cases reg with
  | cfg k => exact (e.stage.cfgWord_store_same v k).trans (by simp)
  | din k => exact Vector.getElem_set_self _
  | key k => exact Vector.getElem_set_self _
  | salt k => exact Vector.getElem_set_self _
  | pers k => exact Vector.getElem_set_self _
  | _ => cases h

/-- A write of a register leaves every other one as it was (20_memory.md R37). -/
theorem Engine.readReg_storeReg_of_ne (e : Engine V) (v : Word32) {reg reg' : Reg} (h : reg' ≠ reg) :
    (e.storeReg v reg).readReg reg' = e.readReg reg' := by
  cases reg with
  | din k =>
    cases reg' with
    | din k' => exact Vector.getElem_set_ne k.isLt k'.isLt fun hn => h (congrArg Reg.din (Fin.ext hn.symm))
    | _ => rfl
  | cfg k =>
    cases reg' with
    | cfg k' => exact e.stage.cfgWord_store_of_ne v fun hn => h (congrArg Reg.cfg hn)
    | _ => rw [Engine.storeReg, Staging.store]; split <;> rfl
  | key k =>
    cases reg' with
    | key k' => exact Vector.getElem_set_ne k.isLt k'.isLt fun hn => h (congrArg Reg.key (Fin.ext hn.symm))
    | _ => rfl
  | salt k =>
    cases reg' with
    | salt k' => exact Vector.getElem_set_ne k.isLt k'.isLt fun hn => h (congrArg Reg.salt (Fin.ext hn.symm))
    | _ => rfl
  | pers k =>
    cases reg' with
    | pers k' => exact Vector.getElem_set_ne k.isLt k'.isLt fun hn => h (congrArg Reg.pers (Fin.ext hn.symm))
    | _ => rfl
  | _ => rfl

/-- Settles O22: the write stores into one staging register, which stands at one offset, or into none. -/
theorem writeIsReadBackThereAlone : Obligations.WriteIsReadBackThereAlone := by
  unfold Obligations.WriteIsReadBackThereAlone
  intro V e a v rest reads ha hcmd
  have hreg : regAt a ≠ .cmd := fun h => hcmd ((regAt_eq_cmd_iff a ha).1 h)
  refine ⟨e.storeReg v (regAt a), ?_, rfl, rfl, rfl, rfl, fun a' ha' => ?_⟩
  · have hdec : decodeAccess ⟨a, 4, some v⟩ = .ok (writeOf a v (regAt a)) := decode_writeForm a v ((aligned_iff a).2 ha)
    simp only [step, fetch, hdec]
    exact exec_writeOf a v hreg e _
  · simp only [← staged_regAt_iff a ha, ← regAt_eq_cfg5_iff a ha]
    split_ifs with h h5
    · obtain ⟨rfl, hs⟩ := h
      exact (e.readReg_storeReg_same v hs).trans (if_pos h5)
    · obtain ⟨rfl, hs⟩ := h
      exact (e.readReg_storeReg_same v hs).trans (if_neg h5)
    · cases hs : (regAt a).Staged with
      | false => rw [e.storeReg_of_not_staged v hs]
      | true => exact e.readReg_storeReg_of_ne v fun hn => h ⟨eq_of_regAt_eq_of_staged ha ha' hn hs, hs⟩

end Sys2Proof.Machine
end

section
/-! ### The datapath is never read -/

namespace Sys2Proof.Machine

variable {V : Variant}

theorem Engine.storeReg_cfg_castSucc (e : Engine V) (v : Word32) (k : Fin 5) :
    e.storeReg v (.cfg k.castSucc) = { e with stage := { e.stage with cfg := e.stage.cfg.set k v } } := by
  simp [Engine.storeReg, Staging.store]

/-- Every instruction runs one command, makes one register write without a side effect, or answers the read of one register, whatever
the state is (20_memory.md R37). -/
theorem exec_kinds (i : Instr) :
    (∃ k, ∀ (V : Variant) (e : Engine V) b, exec i ⟨V, e, b⟩ = .next ⟨V, e.run k, b⟩) ∨
    (∃ v reg, ∀ (V : Variant) (e : Engine V) b, exec i ⟨V, e, b⟩ = .next ⟨V, e.storeReg v reg, b⟩) ∨
    ∃ reg, ∀ (V : Variant) (e : Engine V) b, exec i ⟨V, e, b⟩ = .next ⟨V, e, ⟨b.pending, b.reads ++ [e.readReg reg]⟩⟩ := by
  cases i with
  | nop => exact .inl ⟨.nop, fun _ _ _ => rfl⟩
  | init c => exact .inl ⟨.init c, fun _ _ _ => rfl⟩
  | update len c => exact .inl ⟨.update len c, fun _ _ _ => rfl⟩
  | final c => exact .inl ⟨.final c, fun _ _ _ => rfl⟩
  | clone d s => exact .inl ⟨.clone d s, fun _ _ _ => rfl⟩
  | illegal f => exact .inl ⟨.illegal f, fun _ _ _ => rfl⟩
  | wrCmd w => exact .inl ⟨decodeCommand w, fun _ _ _ => by rw [exec_wrCmd, exec_command]⟩
  | rdId => exact .inr (.inr ⟨.id, fun _ _ _ => rfl⟩)
  | rdStatus => exact .inr (.inr ⟨.status, fun _ _ _ => rfl⟩)
  | rdCmd => exact .inr (.inr ⟨.cmd, fun _ _ _ => rfl⟩)
  | rdDin k => exact .inr (.inr ⟨.din k, fun _ _ _ => rfl⟩)
  | rdCfg k => exact .inr (.inr ⟨.cfg k, fun _ _ _ => rfl⟩)
  | rdKey k => exact .inr (.inr ⟨.key k, fun _ _ _ => rfl⟩)
  | rdSalt k => exact .inr (.inr ⟨.salt k, fun _ _ _ => rfl⟩)
  | rdPers k => exact .inr (.inr ⟨.pers k, fun _ _ _ => rfl⟩)
  | rdDout k => exact .inr (.inr ⟨.dout k, fun _ _ _ => rfl⟩)
  | wrId v => exact .inr (.inl ⟨v, .id, fun _ _ _ => rfl⟩)
  | wrStatus v => exact .inr (.inl ⟨v, .status, fun _ _ _ => rfl⟩)
  | wrDin k v => exact .inr (.inl ⟨v, .din k, fun _ _ _ => rfl⟩)
  | wrCfg k v => exact .inr (.inl ⟨v, .cfg k.castSucc, fun _ e b => by rw [e.storeReg_cfg_castSucc]; rfl⟩)
  | wrCfg5 v => exact .inr (.inl ⟨v, .cfg 5, fun _ _ _ => rfl⟩)
  | wrKey k v => exact .inr (.inl ⟨v, .key k, fun _ _ _ => rfl⟩)
  | wrSalt k v => exact .inr (.inl ⟨v, .salt k, fun _ _ _ => rfl⟩)
  | wrPers k v => exact .inr (.inl ⟨v, .pers k, fun _ _ _ => rfl⟩)
  | wrDout k v => exact .inr (.inl ⟨v, .dout k, fun _ _ _ => rfl⟩)
  | reserved a wdata =>
    cases wdata with
    | none => exact .inr (.inr ⟨.reserved, fun _ _ _ => rfl⟩)
    | some v => exact .inr (.inl ⟨v, .reserved, fun _ _ _ => rfl⟩)

/-- The datapath a compression of the oldest block leaves, and its context, are fixed by the context (41_compression.md R70). -/
theorem compressOldest_congr {x y : Work V} (h : x.c = y.c) : compressOldest x = compressOldest y := by
  simp only [compressOldest, h]

theorem drain_c_congr (n : Nat) {x y : Work V} (h : x.c = y.c) : (drain n x).c = (drain n y).c := by
  cases n with
  | zero => exact h
  | succ n =>
    by_cases hb : V.bb < x.c.buf.length
    · rw [drain_succ_of_lt n x hb, drain_succ_of_lt n y (h ▸ hb), compressOldest_congr h]
    · rw [drain_of_le _ x (by omega), drain_of_le _ y (by rw [← h]; omega), h]

/-- What absorb makes of a context does not depend on the datapath. -/
theorem absorb_c_congr (c : Ctx V) (dp dp' : Datapath V) (d : List Byte) : (absorb ⟨c, dp⟩ d).c = (absorb ⟨c, dp'⟩ d).c :=
  drain_c_congr _ rfl

theorem construct_c_congr (C : HashConfig) (dp dp' : Datapath V) : (construct C dp).c = (construct C dp').c := by
  unfold construct
  split
  · rfl
  · exact absorb_c_congr _ _ _ _

/-- The second engine is the first but for its datapath. -/
def Engine.EqOffDp (e1 e2 : Engine V) : Prop := ∃ dp, e2 = { e1 with dp := dp }

theorem Engine.EqOffDp.setStatus {e1 e2 : Engine V} (h : e1.EqOffDp e2) (err : ErrCode) (cs : Lifecycle) :
    (e1.setStatus err cs).EqOffDp (e2.setStatus err cs) := by
  obtain ⟨dp, rfl⟩ := h
  exact ⟨dp, rfl⟩

theorem Engine.EqOffDp.putWork {e1 e2 : Engine V} (h : e1.EqOffDp e2) (c : BitVec 4) {x y : Work V} (hxy : x.c = y.c) :
    (e1.putWork c x).EqOffDp (e2.putWork c y) := by
  obtain ⟨dp, rfl⟩ := h
  exact ⟨y.dp, by simp [Engine.putWork, hxy]⟩

theorem Engine.EqOffDp.withCtx {e1 e2 : Engine V} (h : e1.EqOffDp e2) {c : BitVec 4} {f1 f2 : Ctx V → Engine V}
    (hf : ∀ r, (f1 r).EqOffDp (f2 r)) : (e1.withCtx c f1).EqOffDp (e2.withCtx c f2) := by
  obtain ⟨dp, rfl⟩ := h
  unfold Engine.withCtx
  cases e1.ctx[c.toNat]? with
  | none => exact ⟨dp, rfl⟩
  | some r => exact hf r

/-- No command reads the datapath (10_state.md R14, 41_compression.md R76). -/
theorem Engine.EqOffDp.run {e1 e2 : Engine V} (h : e1.EqOffDp e2) (k : Command) : (e1.run k).EqOffDp (e2.run k) := by
  obtain ⟨dp, rfl⟩ := id h
  cases k with
  | nop => exact ⟨dp, rfl⟩
  | illegal f => exact ⟨dp, rfl⟩
  | init c =>
    refine h.withCtx fun _ => ?_
    dsimp only
    split
    · exact (h.putWork c (construct_c_congr _ _ _)).setStatus _ _
    · exact ⟨dp, rfl⟩
  | update len c =>
    refine h.withCtx fun r => ?_
    cases r.st with
    | empty => exact ⟨dp, rfl⟩
    | final => exact ⟨dp, rfl⟩
    | ready => exact (h.putWork c (absorb_c_congr _ _ _ _)).setStatus _ _
  | final c =>
    refine h.withCtx fun r => ?_
    obtain ⟨st, _⟩ := r
    cases st <;> exact ⟨_, rfl⟩
  | clone d s =>
    refine h.withCtx fun _ => h.withCtx fun r => ?_
    obtain ⟨st, _⟩ := r
    cases st <;> exact ⟨dp, rfl⟩

/-- No register of the window shows the datapath (20_memory.md R36). -/
theorem Engine.readReg_putDp (e : Engine V) (dp : Datapath V) (reg : Reg) :
    ({ e with dp := dp } : Engine V).readReg reg = e.readReg reg := by cases reg <;> rfl

/-- Settles O47: a command writes the datapath without reading it, a store and a read leave it. -/
theorem datapathLeftoversAreNeverRead : Obligations.DatapathLeftoversAreNeverRead := by
  unfold Obligations.DatapathLeftoversAreNeverRead
  intro i V e dp b
  rcases exec_kinds i with ⟨k, hk⟩ | ⟨v, reg, hstore⟩ | ⟨reg, hread⟩
  · obtain ⟨dp', hdp'⟩ := Engine.EqOffDp.run (e1 := e) ⟨dp, rfl⟩ k
    exact ⟨e.run k, (e.run k).dp, dp', b, hk V e b, by rw [hk, hdp']⟩
  · exact ⟨e.storeReg v reg, e.dp, dp, b, hstore V e b, hstore V _ b⟩
  · exact ⟨e, e.dp, dp, _, hread V e b, by rw [hread, Engine.readReg_putDp]⟩

end Sys2Proof.Machine
end

section
/-! ### A write of one context beside the commands -/

namespace Sys2Proof

/-- A command names context `c`: as the one it writes, or as the one it copies (30_encoding.md R44). -/
def Command.Names (c : BitVec 4) : Command → Prop
  | .nop => False
  | .init d => d = c
  | .update _ d => d = c
  | .final d => d = c
  | .clone d s => d = c ∨ s = c
  | .illegal _ => False

end Sys2Proof

namespace Sys2Proof.Machine

variable {V : Variant} (e : Engine V) {c d : BitVec 4} (r : Ctx V)

@[simp] theorem Engine.setStatus_putCtx (err : ErrCode) (cs : Lifecycle) :
    (e.putCtx c r).setStatus err cs = (e.setStatus err cs).putCtx c r := rfl
@[simp] theorem Engine.raise_putCtx (err : ErrCode) (cs : Lifecycle) :
    (e.putCtx c r).raise err cs = (e.raise err cs).putCtx c r := rfl
@[simp] theorem Engine.raiseIllegal_putCtx : (e.putCtx c r).raiseIllegal = e.raiseIllegal.putCtx c r := rfl
@[simp] theorem Engine.putDigest_putCtx (D : List Byte) : (e.putCtx c r).putDigest D = (e.putDigest D).putCtx c r := rfl

@[simp] theorem Engine.putCtx_putCtx_same (r' : Ctx V) : (e.putCtx c r).putCtx c r' = e.putCtx c r' := by
  simp [Engine.putCtx]

@[simp] theorem Engine.putWork_putCtx_same (x : Work V) : (e.putCtx c r).putWork c x = e.putWork c x := by
  simp [Engine.putCtx, Engine.putWork]

theorem Engine.putWork_putCtx_of_ne (h : d ≠ c) (x : Work V) :
    (e.putCtx c r).putWork d x = (e.putWork d x).putCtx c r := by
  have hne : c.toNat ≠ d.toNat := fun hn => h (BitVec.eq_of_toNat_eq hn.symm)
  simp [Engine.putCtx, Engine.putWork, List.set_comm _ _ hne]

theorem Engine.putCtx_putCtx_of_ne (h : d ≠ c) (r' : Ctx V) : (e.putCtx c r).putCtx d r' = (e.putCtx d r').putCtx c r :=
  Engine.putWork_putCtx_of_ne e r h ⟨r', e.dp⟩

theorem Engine.withCtx_putCtx_same (hc : c.toNat < e.ctx.length) (f : Ctx V → Engine V) :
    (e.putCtx c r).withCtx c f = f r := Engine.withCtx_some f (by simp [hc])

/-- What is done with another context goes past a write of context `c`. -/
theorem Engine.withCtx_putCtx_of_ne (h : d ≠ c) {f f' : Ctx V → Engine V} (hf : ∀ x, f' x = (f x).putCtx c r) :
    (e.putCtx c r).withCtx d f' = (e.withCtx d f).putCtx c r := by
  have hne : c.toNat ≠ d.toNat := fun hn => h (BitVec.eq_of_toNat_eq hn.symm)
  simp only [Engine.withCtx, Engine.putCtx_ctx, List.getElem?_set_ne hne]
  cases e.ctx[d.toNat]? with
  | none => rfl
  | some x => exact hf x

/-- A command that does not name context `c` goes past a write of it. -/
theorem Engine.run_putCtx_of_not_names {k : Command} (h : ¬ k.Names c) : (e.putCtx c r).run k = (e.run k).putCtx c r := by
  cases k with
  | nop => rfl
  | illegal f => rfl
  | init d =>
    refine Engine.withCtx_putCtx_of_ne e r h fun _ => ?_
    cases hv : (snapshot e.stage).valid V <;> simp [hv, Engine.putWork_putCtx_of_ne e r h, Engine.putCtx_putCtx_of_ne e r h]
  | update len d =>
    refine Engine.withCtx_putCtx_of_ne e r h fun x => ?_
    cases hs : x.st <;> simp [Engine.putWork_putCtx_of_ne e r h]
  | final d =>
    refine Engine.withCtx_putCtx_of_ne e r h fun x => ?_
    cases hs : x.st <;> simp [Engine.putWork_putCtx_of_ne e r h, finalize, hs]
  | clone d s =>
    obtain ⟨hd, hs⟩ := not_or.mp h
    refine Engine.withCtx_putCtx_of_ne e r hd fun _ => Engine.withCtx_putCtx_of_ne e r hs fun x => ?_
    cases x.st <;> simp [Engine.putCtx_putCtx_of_ne e r hd]

end Sys2Proof.Machine
end

section
/-! ### The fields of an EMPTY context are never read -/

namespace Sys2Proof.Machine

variable {V : Variant} {e : Engine V} {c : BitVec 4}

/-- INIT does not read the context it writes (43_host_commands.md R103). -/
theorem Engine.init_putCtx_same (hc : c.toNat < e.ctx.length) (r : Ctx V) : (e.putCtx c r).init c = e.init c := by
  unfold Engine.init
  rw [Engine.withCtx_putCtx_same e r hc, Engine.withCtx_some _ (List.getElem?_eq_getElem hc)]
  cases hv : (snapshot e.stage).valid V <;> simp [hv]

theorem Engine.update_putCtx_empty (hc : c.toNat < e.ctx.length) (len : BitVec 4) {r : Ctx V} (hr : r.st = .empty) :
    (e.putCtx c r).update len c = (e.raise .noctx .empty).putCtx c r := by
  unfold Engine.update
  rw [Engine.withCtx_putCtx_same e r hc, hr]
  rfl

theorem Engine.final_putCtx_empty (hc : c.toNat < e.ctx.length) {r : Ctx V} (hr : r.st = .empty) :
    (e.putCtx c r).final c = (e.raise .noctx .empty).putCtx c r := by
  unfold Engine.final
  rw [Engine.withCtx_putCtx_same e r hc, hr]
  rfl

/-- CLONE from an EMPTY context reports the missing destination, or the missing context (60_exceptions.md R131, R133). -/
theorem Engine.clone_putCtx_empty_source (hc : c.toNat < e.ctx.length) (d : BitVec 4) {r : Ctx V} (hr : r.st = .empty) :
    (e.putCtx c r).clone d c = (e.withCtx d fun _ => e.raise .noctx .empty).putCtx c r := by
  have hsrc : (e.putCtx c r).clone d c = (e.putCtx c r).withCtx d fun _ => (e.raise .noctx .empty).putCtx c r := by
    unfold Engine.clone
    rw [Engine.withCtx_putCtx_same e r hc, hr]
    rfl
  rw [hsrc]
  by_cases hd : d = c
  · subst hd
    rw [Engine.withCtx_putCtx_same e r hc, Engine.withCtx_some _ (List.getElem?_eq_getElem hc)]
  · exact Engine.withCtx_putCtx_of_ne e r hd fun _ => rfl

/-- CLONE into context `c` from another one does not read `c`: it overwrites it, or leaves it with an error (43_host_commands.md R106). -/
theorem Engine.clone_putCtx_dest (hc : c.toNat < e.ctx.length) {s : BitVec 4} (hs : s ≠ c) :
    (∃ e' : Engine V, ∀ r, (e.putCtx c r).clone c s = e') ∨
    ∃ e' : Engine V, ∀ r, (e.putCtx c r).clone c s = e'.putCtx c r := by
  have hne : c.toNat ≠ s.toNat := fun hn => hs (BitVec.eq_of_toNat_eq hn.symm)
  have hget (r : Ctx V) : (e.putCtx c r).ctx[s.toNat]? = e.ctx[s.toNat]? := List.getElem?_set_ne hne
  simp only [Engine.clone, Engine.withCtx_putCtx_same e _ hc]
  cases hx : e.ctx[s.toNat]? with
  | none =>
    have hlen : e.ctx.length ≤ s.toNat := List.getElem?_eq_none_iff.mp hx
    exact .inr ⟨e.raiseIllegal, fun r => Engine.withCtx_none _ (by simpa using hlen)⟩
  | some x =>
    simp only [Engine.withCtx_some _ ((hget _).trans hx)]
    cases x.st with
    | empty => exact .inr ⟨e.raise .noctx .empty, fun r => rfl⟩
    | ready => exact .inl ⟨(e.putCtx c x).setStatus .ok .ready, fun r => by simp⟩
    | final => exact .inl ⟨(e.putCtx c x).setStatus .ok .final, fun r => by simp⟩

/-- An EMPTY record in the place of context `c` is overwritten, whatever its fields, or it stays and the rest of the outcome does not
depend on its fields (10_state.md R32, 60_exceptions.md R131). -/
theorem Engine.run_putCtx_empty (k : Command) (hc : c.toNat < e.ctx.length) :
    (∃ e' : Engine V, ∀ r, r.st = .empty → (e.putCtx c r).run k = e') ∨
    ∃ e' : Engine V, ∀ r, r.st = .empty → (e.putCtx c r).run k = e'.putCtx c r := by
  by_cases hn : k.Names c
  · cases k with
    | nop => exact hn.elim
    | illegal f => exact hn.elim
    | init d =>
      obtain rfl : d = c := hn
      exact .inl ⟨_, fun r _ => Engine.init_putCtx_same hc r⟩
    | update len d =>
      obtain rfl : d = c := hn
      exact .inr ⟨_, fun _ => Engine.update_putCtx_empty hc len⟩
    | final d =>
      obtain rfl : d = c := hn
      exact .inr ⟨_, fun _ => Engine.final_putCtx_empty hc⟩
    | clone d s =>
      by_cases hs : s = c
      · subst hs
        exact .inr ⟨_, fun _ => Engine.clone_putCtx_empty_source hc d⟩
      · obtain rfl : d = c := hn.resolve_right hs
        rcases Engine.clone_putCtx_dest hc hs with ⟨e', h⟩ | ⟨e', h⟩
        · exact .inl ⟨e', fun r _ => h r⟩
        · exact .inr ⟨e', fun r _ => h r⟩
  · exact .inr ⟨e.run k, fun r _ => Engine.run_putCtx_of_not_names e r hn⟩

/-- Settles O48: two EMPTY records are overwritten by the same context, or each stays in the same engine. -/
theorem emptyContextIsNeverRead : Obligations.EmptyContextIsNeverRead := by
  unfold Obligations.EmptyContextIsNeverRead
  intro k V e e1 e2 b b1 b2 c r1 r2 hc h1 h2 hx1 hx2
  obtain ⟨he1, rfl⟩ := exec_command_inv (e := e.putCtx c r1) hx1
  obtain ⟨he2, rfl⟩ := exec_command_inv (e := e.putCtx c r2) hx2
  rcases Engine.run_putCtx_empty k hc with ⟨e', h⟩ | ⟨e', h⟩
  · obtain rfl : e1 = e2 := by rw [he1, he2, h r1 h1, h r2 h2]
    exact ⟨rfl, rfl, rfl, rfl, rfl, fun _ _ => rfl, .inl rfl⟩
  · rw [he1, he2, h r1 h1, h r2 h2]
    refine ⟨rfl, rfl, rfl, rfl, rfl, fun d hd => ?_, ?_⟩
    · simp [List.getElem?_set_ne hd.symm]
    · by_cases hlen : c.toNat < e'.ctx.length
      · exact .inr ⟨by simp [hlen], by simp [hlen]⟩
      · exact .inl (by simp [Nat.not_lt.mp hlen])

end Sys2Proof.Machine
end

section
/-! ### The two encoded forms, both ways -/

namespace Sys2Proof

/-- The fields of a command's word (30_encoding.md R42, R44). -/
def Command.fields : Command → CommandFields
  | .nop => ⟨opNop, 0, 0, 0, 0⟩
  | .init c => ⟨opInit, 0, c, 0, 0⟩
  | .update len c => ⟨opUpdate, len, c, 0, 0⟩
  | .final c => ⟨opFinal, 0, c, 0, 0⟩
  | .clone d s => ⟨opClone, 0, d, s, 0⟩
  | .illegal f => f

theorem encodeCommand_eq_packFields (k : Command) : encodeCommand k = packFields k.fields := by cases k <;> rfl

/-- A command's fields pass the checks of 30_encoding.md R45, an ILLEGAL word's fail them, and OP tells the commands apart. -/
theorem decodeFields_fields {k : Command} (h : k.wellFormed = true) : decodeFields k.fields = k := by
  cases k with
  | nop => rfl
  | init c => rfl
  | update len c =>
    have hlen : len.toNat ≤ 8 := of_decide_eq_true h
    have hlegal : illegalFields (Command.update len c).fields = false :=
      (illegalFields_false_iff _).2 ⟨rfl, (by decide : opUpdate.toNat < 5), nofun, nofun, fun _ => ⟨rfl, hlen⟩, nofun⟩
    rw [decodeFields, if_neg (by simp [hlegal])]
    rfl
  | final c => rfl
  | clone d s => rfl
  | illegal f => exact if_pos h

theorem opcode_of_lt_five : ∀ op : BitVec 8, op.toNat < 5 →
    op = opNop ∨ op = opInit ∨ op = opUpdate ∨ op = opFinal ∨ op = opClone := by decide

/-- The checks of 30_encoding.md R45 leave no bit of a legal word beside OP and the operands of its command. -/
theorem fields_decodeFields (f : CommandFields) : (decodeFields f).fields = f ∧ (decodeFields f).wellFormed = true := by
  by_cases hill : illegalFields f = true
  · rw [decodeFields, if_pos hill]
    exact ⟨rfl, hill⟩
  obtain ⟨op, len, ctx, src, rsv⟩ := f
  obtain ⟨hrsv, hop, hnop, hinit, hupdate, hclone⟩ := (illegalFields_false_iff _).1 (Bool.not_eq_true _ ▸ hill)
  rw [decodeFields, if_neg hill]
  dsimp only at hrsv hop hnop hinit hupdate hclone
  subst hrsv
  rcases opcode_of_lt_five op hop with rfl | rfl | rfl | rfl | rfl
  · obtain ⟨rfl, rfl, rfl⟩ := hnop rfl
    exact ⟨rfl, rfl⟩
  · obtain ⟨rfl, rfl⟩ := hinit (.inl rfl)
    exact ⟨rfl, rfl⟩
  · obtain ⟨rfl, hlen⟩ := hupdate rfl
    exact ⟨rfl, decide_eq_true hlen⟩
  · obtain ⟨rfl, rfl⟩ := hinit (.inr rfl)
    exact ⟨rfl, rfl⟩
  · obtain rfl := hclone rfl
    exact ⟨rfl, rfl⟩

theorem decodeCommand_encodeCommand {k : Command} (h : k.wellFormed = true) : decodeCommand (encodeCommand k) = k := by
  rw [decodeCommand, encodeCommand_eq_packFields, fieldsOf_packFields, decodeFields_fields h]

theorem encodeCommand_decodeCommand (w : Word32) : encodeCommand (decodeCommand w) = w := by
  rw [encodeCommand_eq_packFields, decodeCommand, (fields_decodeFields _).1, packFields_fieldsOf]

theorem encode_toInstr (k : Command) : encode k.toInstr = .command (encodeCommand k) := by cases k <;> rfl

theorem wellFormed_toInstr (k : Command) : k.toInstr.wellFormed = k.wellFormed := by cases k <;> rfl

theorem decode_encode_toInstr {k : Command} (h : k.wellFormed = true) : decode (encode k.toInstr) = .ok k.toInstr := by
  rw [encode_toInstr, decode, decodeCommand_encodeCommand h]

/-- The registers of a bank whose base is word-aligned are word-aligned (20_memory.md R36). -/
theorem aligned_bankOffset {base : Nat} (h : base % 4 = 0) (k : Nat) : aligned (bankOffset base k) = true := by
  rw [aligned_iff, bankOffset, BitVec.toNat_ofNat]
  omega

theorem decode_readForm_of_regAt {a : BitVec 8} {reg : Reg} (ha : aligned a = true) (h : regAt a = reg) :
    decode (readForm a) = .ok (readOf a reg) := by rw [decode_readForm a ha, decodeRead_of_regAt a reg h]

theorem decode_writeForm_of_regAt {a : BitVec 8} {reg : Reg} (v : Word32) (ha : aligned a = true) (h : regAt a = reg) :
    decode (writeForm a v) = .ok (writeOf a v reg) := by rw [decode_writeForm a v ha, decodeWrite_of_regAt a v reg h]

theorem readForm_injective {a a' : BitVec 8} (h : readForm a = readForm a') : a = a' := by simpa [readForm] using h

/-- A register is written at the offset it is read at (20_memory.md R36). -/
theorem encode_writeOf_of_encode_readOf {a a' : BitVec 8} {reg : Reg} (v : Word32) (h : encode (readOf a reg) = readForm a') :
    encode (writeOf a v reg) = writeForm a' v := by
  cases reg with
  | cfg k =>
    obtain rfl := readForm_injective h
    by_cases hk : k.val < 5
    · simp only [writeOf, hk, dite_true]; rfl
    · obtain rfl : k = 5 := by omega
      rfl
  | _ => obtain rfl := readForm_injective h; rfl

/-- The write that an aligned offset decodes to is encoded with that offset (30_encoding.md R41). -/
theorem encode_decodeWrite {a : BitVec 8} (v : Word32) (ha : a.toNat % 4 = 0) : encode (decodeWrite a v) = writeForm a v :=
  encode_writeOf_of_encode_readOf v (encode_decodeRead a ha)

theorem wellFormed_readOf {a : BitVec 8} {reg : Reg} (ha : aligned a = true) (h : regAt a = reg) :
    (readOf a reg).wellFormed = true := by
  cases reg with
  | reserved => simp [readOf, Instr.wellFormed, ha, h]
  | _ => rfl

theorem wellFormed_writeOf {a : BitVec 8} {reg : Reg} (v : Word32) (ha : aligned a = true) (h : regAt a = reg) :
    (writeOf a v reg).wellFormed = true := by
  cases reg with
  | reserved => simp [writeOf, Instr.wellFormed, ha, h]
  | cfg k => rw [writeOf]; split <;> rfl
  | _ => rfl

/-- Settles O1: a command word by its fields, an access by the register at its offset. -/
theorem decodeOfEncodeIsTheInstruction : Obligations.DecodeOfEncodeIsTheInstruction := by
  unfold Obligations.DecodeOfEncodeIsTheInstruction
  intro i h
  cases i with
  | nop => exact decode_encode_toInstr (k := .nop) h
  | init c => exact decode_encode_toInstr (k := .init c) h
  | update len c => exact decode_encode_toInstr (k := .update len c) h
  | final c => exact decode_encode_toInstr (k := .final c) h
  | clone d s => exact decode_encode_toInstr (k := .clone d s) h
  | illegal f => exact decode_encode_toInstr (k := .illegal f) h
  | rdId => exact decode_readForm_of_regAt rfl rfl
  | wrId v => exact decode_writeForm_of_regAt v rfl rfl
  | rdStatus => exact decode_readForm_of_regAt rfl rfl
  | wrStatus v => exact decode_writeForm_of_regAt v rfl rfl
  | rdCmd => exact decode_readForm_of_regAt rfl rfl
  | wrCmd w => exact decode_writeForm_of_regAt w rfl rfl
  | rdDin k => exact decode_readForm_of_regAt (aligned_bankOffset rfl k) (regAt_din k)
  | wrDin k v => exact decode_writeForm_of_regAt v (aligned_bankOffset rfl k) (regAt_din k)
  | rdCfg k => exact decode_readForm_of_regAt (aligned_bankOffset rfl k) (regAt_cfg k)
  | wrCfg k v =>
    have hdec := decode_writeForm_of_regAt v (aligned_bankOffset rfl k) (regAt_cfg k.castSucc)
    simpa [writeOf, encode] using hdec
  | wrCfg5 v => exact decode_writeForm_of_regAt v rfl rfl
  | rdKey k => exact decode_readForm_of_regAt (aligned_bankOffset rfl k) (regAt_key k)
  | wrKey k v => exact decode_writeForm_of_regAt v (aligned_bankOffset rfl k) (regAt_key k)
  | rdSalt k => exact decode_readForm_of_regAt (aligned_bankOffset rfl k) (regAt_salt k)
  | wrSalt k v => exact decode_writeForm_of_regAt v (aligned_bankOffset rfl k) (regAt_salt k)
  | rdPers k => exact decode_readForm_of_regAt (aligned_bankOffset rfl k) (regAt_pers k)
  | wrPers k v => exact decode_writeForm_of_regAt v (aligned_bankOffset rfl k) (regAt_pers k)
  | rdDout k => exact decode_readForm_of_regAt (aligned_bankOffset rfl k) (regAt_dout k)
  | wrDout k v => exact decode_writeForm_of_regAt v (aligned_bankOffset rfl k) (regAt_dout k)
  | reserved a wdata =>
    obtain ⟨ha, hreg⟩ : aligned a = true ∧ regAt a = .reserved := by simpa [Instr.wellFormed] using h
    cases wdata with
    | none => exact decode_readForm_of_regAt ha hreg
    | some v => exact decode_writeForm_of_regAt v ha hreg

/-- An access that decodes is a 32-bit read or write of an aligned offset (20_memory.md R34). -/
theorem decodeAccess_ok {a : Access} {i : Instr} (h : decodeAccess a = .ok i) : aligned a.addr = true ∧
    ((a = ⟨a.addr, 4, none⟩ ∧ i = decodeRead a.addr) ∨ ∃ v, a = ⟨a.addr, 4, some v⟩ ∧ i = decodeWrite a.addr v) := by
  obtain ⟨addr, width, wdata⟩ := a
  by_cases hw : width = 4 ∧ aligned addr = true
  · rw [decodeAccess, if_pos hw] at h
    obtain ⟨rfl, ha⟩ := hw
    cases wdata with
    | none => exact ⟨ha, .inl ⟨rfl, (Except.ok.inj h).symm⟩⟩
    | some v => exact ⟨ha, .inr ⟨v, rfl, (Except.ok.inj h).symm⟩⟩
  · rw [decodeAccess, if_neg hw] at h
    cases h

/-- Settles O2: a command word is its fields, an access is its offset, direction and data. -/
theorem encodeOfDecodeIsTheForm : Obligations.EncodeOfDecodeIsTheForm := by
  unfold Obligations.EncodeOfDecodeIsTheForm
  intro f i h
  cases f with
  | command w =>
    obtain rfl := Except.ok.inj h
    rw [encode_toInstr, encodeCommand_decodeCommand, wellFormed_toInstr]
    exact ⟨rfl, (fields_decodeFields _).2⟩
  | transaction a =>
    obtain ⟨ha, ⟨haccess, rfl⟩ | ⟨v, haccess, rfl⟩⟩ := decodeAccess_ok h
    · rw [haccess]
      exact ⟨encode_decodeRead _ ((aligned_iff _).1 ha), wellFormed_readOf ha rfl⟩
    · rw [haccess]
      exact ⟨encode_decodeWrite v ((aligned_iff _).1 ha), wellFormed_writeOf v ha rfl⟩

/-- Settles O6: the decoder evaluated on each word and access. -/
theorem writtenOutWordsDecode : Obligations.WrittenOutWordsDecode := by
  unfold Obligations.WrittenOutWordsDecode
  decide

/-- The reserved offsets of 20_memory.md R36. -/
theorem regAt_eq_reserved_iff : ∀ a : BitVec 8, a.toNat % 4 = 0 → (regAt a = .reserved ↔
    a = 0x0C ∨ a = 0x18 ∨ a = 0x1C ∨ a = 0x38 ∨ a = 0x3C ∨ (0xA0 ≤ a.toNat ∧ a.toNat ≤ 0xBC)) := by decide

/-- Settles O7, register by register, bank by bank. -/
theorem windowMap : Obligations.WindowMap := by
  unfold Obligations.WindowMap
  exact ⟨rfl, rfl, rfl, regAt_din, regAt_cfg, regAt_key, regAt_salt, regAt_pers, regAt_dout, regAt_eq_reserved_iff⟩

end Sys2Proof
end

section
/-! ### The next access on the bus -/

namespace Sys2Proof.Machine

variable {V : Variant}

/-- Settles O8: the next event is taken from the bus and its instruction is run. -/
theorem stepRunsTheDecodedAccess : Obligations.StepRunsTheDecodedAccess := by
  unfold Obligations.StepRunsTheDecodedAccess
  intro V e a rest reads i h
  simp only [step, fetch, h, State.pop]

/-- A read of a register answers what the register holds and leaves the engine (20_memory.md R37). -/
theorem exec_readOf (a : BitVec 8) (reg : Reg) (e : Engine V) (b : Bus) :
    exec (readOf a reg) ⟨V, e, b⟩ = .next ⟨V, e, ⟨b.pending, b.reads ++ [e.readReg reg]⟩⟩ := by cases reg <;> rfl

/-- Settles O21: an aligned read decodes to the read of the register at its offset. -/
theorem everyReadIsFreeOfSideEffects : Obligations.EveryReadIsFreeOfSideEffects := by
  unfold Obligations.EveryReadIsFreeOfSideEffects
  intro V e a rest reads ha
  have hdec : decodeAccess ⟨a, 4, none⟩ = .ok (readOf a (regAt a)) := decode_readForm a ((aligned_iff a).2 ha)
  exact (stepRunsTheDecodedAccess V e _ rest reads _ hdec).trans (exec_readOf a (regAt a) e ⟨rest, reads⟩)

end Sys2Proof.Machine
end

section
/-! ### Command words as match and mask pairs -/

namespace Sys2Proof

/-- A word decodes to the one command whose fields it has, if that command has a word at all (30_encoding.md R42 to R45). -/
theorem decodeCommand_eq_iff (w : Word32) (k : Command) :
    decodeCommand w = k ↔ k.wellFormed = true ∧ fieldsOf w = k.fields := by
  constructor
  · rintro rfl
    obtain ⟨hfields, hwf⟩ := fields_decodeFields (fieldsOf w)
    exact ⟨hwf, hfields.symm⟩
  · rintro ⟨hwf, hfields⟩
    rw [decodeCommand, hfields, decodeFields_fields hwf]

theorem decodeCommand_illegal_iff (w : Word32) :
    (∃ f, decodeCommand w = .illegal f) ↔ illegalFields (fieldsOf w) = true := by
  simp [decodeCommand_eq_iff, Command.wellFormed, Command.fields]

theorem fieldsOf_injective : Function.Injective fieldsOf := Function.LeftInverse.injective packFields_fieldsOf

/-- A mask acts on each field by its own (30_encoding.md R42). -/
theorem and_packFields_eq_iff (w : Word32) (m f : CommandFields) : w &&& packFields m = packFields f ↔
    (fieldsOf w).op &&& m.op = f.op ∧ (fieldsOf w).len &&& m.len = f.len ∧ (fieldsOf w).ctx &&& m.ctx = f.ctx ∧
    (fieldsOf w).src &&& m.src = f.src ∧ (fieldsOf w).rsv &&& m.rsv = f.rsv := by
  have hand : fieldsOf (w &&& packFields m) = ⟨(fieldsOf w).op &&& m.op, (fieldsOf w).len &&& m.len,
      (fieldsOf w).ctx &&& m.ctx, (fieldsOf w).src &&& m.src, (fieldsOf w).rsv &&& m.rsv⟩ := by
    conv_rhs => rw [← fieldsOf_packFields m]
    simp only [fieldsOf, BitVec.extractLsb'_and]
  rw [← fieldsOf_injective.eq_iff, fieldsOf_packFields, hand, CommandFields.mk.injEq]

/-- The part of a field that a mask or a match fixes: nothing of an operand (30_encoding.md R44). -/
def fixedBits {n : Nat} (operand : Bool) (x : BitVec n) : BitVec n := if operand then 0 else x

theorem eq_iff_fixedBits {n : Nat} (operand : Bool) (x y : BitVec n) :
    x = y ↔ x &&& fixedBits operand (.allOnes n) = fixedBits operand y ∧ (operand = true → y = x) := by
  cases operand with
  | false => simp [fixedBits]
  | true => simp [fixedBits, eq_comm]

/-- A word has given fields when it is the match under the mask and its operands are the given ones. -/
theorem fieldsOf_eq_iff (w : Word32) (f : CommandFields) (len ctx src : Bool) : fieldsOf w = f ↔
    w &&& packFields ⟨.allOnes 8, fixedBits len (.allOnes 4), fixedBits ctx (.allOnes 4), fixedBits src (.allOnes 4),
        .allOnes 12⟩ =
      packFields ⟨f.op, fixedBits len f.len, fixedBits ctx f.ctx, fixedBits src f.src, f.rsv⟩ ∧
    (len = true → f.len = w.extractLsb' 8 4) ∧ (ctx = true → f.ctx = w.extractLsb' 12 4) ∧
    (src = true → f.src = w.extractLsb' 16 4) := by
  rw [and_packFields_eq_iff, BitVec.and_allOnes, BitVec.and_allOnes]
  obtain ⟨op, l, c, s, rsv⟩ := f
  simp only [fieldsOf, CommandFields.mk.injEq]
  rw [eq_iff_fixedBits len _ l, eq_iff_fixedBits ctx _ c, eq_iff_fixedBits src _ s]
  tauto

theorem decodeCommand_nop_iff (w : Word32) : decodeCommand w = .nop ↔ w = 0x00000000 := by
  rw [decodeCommand_eq_iff, ← fieldsOf_injective.eq_iff]
  exact ⟨And.right, fun h => ⟨rfl, h⟩⟩

theorem decodeCommand_init_iff (w : Word32) (c : BitVec 4) :
    decodeCommand w = .init c ↔ w &&& 0xFFFF0FFF = 0x00000001 ∧ c = w.extractLsb' 12 4 := by
  rw [decodeCommand_eq_iff, fieldsOf_eq_iff w _ false true false]
  simp [Command.wellFormed, Command.fields, packFields, fixedBits, opInit]

theorem decodeCommand_update_iff (w : Word32) (len c : BitVec 4) : decodeCommand w = .update len c ↔
    w &&& 0xFFFF00FF = 0x00000002 ∧ len.toNat ≤ 8 ∧ len = w.extractLsb' 8 4 ∧ c = w.extractLsb' 12 4 := by
  rw [decodeCommand_eq_iff, fieldsOf_eq_iff w _ true true false]
  simp [Command.wellFormed, Command.fields, packFields, fixedBits, opUpdate, and_left_comm]

theorem decodeCommand_final_iff (w : Word32) (c : BitVec 4) :
    decodeCommand w = .final c ↔ w &&& 0xFFFF0FFF = 0x00000003 ∧ c = w.extractLsb' 12 4 := by
  rw [decodeCommand_eq_iff, fieldsOf_eq_iff w _ false true false]
  simp [Command.wellFormed, Command.fields, packFields, fixedBits, opFinal]

theorem decodeCommand_clone_iff (w : Word32) (d s : BitVec 4) : decodeCommand w = .clone d s ↔
    w &&& 0xFFF00FFF = 0x00000004 ∧ d = w.extractLsb' 12 4 ∧ s = w.extractLsb' 16 4 := by
  rw [decodeCommand_eq_iff, fieldsOf_eq_iff w _ false true true]
  simp [Command.wellFormed, Command.fields, packFields, fixedBits, opClone]

/-- The conditions of 30_encoding.md R45, on the fields as numbers. -/
theorem illegalFields_iff (f : CommandFields) : illegalFields f = true ↔
    f.rsv.toNat ≠ 0 ∨ 5 ≤ f.op.toNat ∨ (f.op.toNat = 0 ∧ (f.len.toNat ≠ 0 ∨ f.ctx.toNat ≠ 0 ∨ f.src.toNat ≠ 0)) ∨
    ((f.op.toNat = 1 ∨ f.op.toNat = 3) ∧ (f.len.toNat ≠ 0 ∨ f.src.toNat ≠ 0)) ∨ (f.op.toNat = 2 ∧ f.src.toNat ≠ 0) ∨
    (f.op.toNat = 2 ∧ 8 < f.len.toNat) ∨ (f.op.toNat = 4 ∧ f.len.toNat ≠ 0) := by
  simp [illegalFields, opNop, opInit, opUpdate, opFinal, opClone, BitVec.toNat_eq, or_assoc]

/-- Settles O3: each command is its fields, a reserved OP fails the checks of R45. -/
theorem commandsAreTheMatchAndMaskRows : Obligations.CommandsAreTheMatchAndMaskRows := by
  unfold Obligations.CommandsAreTheMatchAndMaskRows
  intro w
  exact ⟨decodeCommand_nop_iff w, decodeCommand_init_iff w, decodeCommand_update_iff w, decodeCommand_final_iff w,
    decodeCommand_clone_iff w, fun hop => (decodeCommand_illegal_iff w).2 ((illegalFields_iff _).2 (.inr (.inl hop)))⟩

end Sys2Proof
end

section
/-! ### Words and commands that are ILLEGAL -/

namespace Sys2Proof.Machine

variable {V : Variant}

/-- Settles O4: the word is ILLEGAL by its fields, and the write then runs the command ILLEGAL. -/
theorem illegalWordsAreTheSevenConditions : Obligations.IllegalWordsAreTheSevenConditions := by
  unfold Obligations.IllegalWordsAreTheSevenConditions
  intro w
  refine ⟨(decodeCommand_illegal_iff w).trans (illegalFields_iff _), ?_⟩
  rintro ⟨f, hf⟩ V e b
  rw [exec_wrCmd, hf]
  exact exec_command _ e b

/-- CLONE looks up both its contexts before anything else (30_encoding.md R46). -/
theorem Engine.clone_of_out_of_range {e : Engine V} {d s : BitVec 4}
    (h : e.ctx.length ≤ d.toNat ∨ e.ctx.length ≤ s.toNat) : e.clone d s = e.raiseIllegal := by
  rcases Engine.clone_cases d s e with ⟨-, hill⟩ | ⟨hd, r, hr, -⟩
  · exact hill
  · have hs : s.toNat < e.ctx.length := (List.getElem?_eq_some_iff.mp hr).1
    omega

/-- Settles O5: the look-up of the context fails, and a context index is below 16. -/
theorem contextOutOfRangeIsIllegal : Obligations.ContextOutOfRangeIsIllegal := by
  unfold Obligations.ContextOutOfRangeIsIllegal
  intro V e b c d len h
  have hrun {k : Command} (hk : e.run k = e.raiseIllegal) : exec k.toInstr ⟨V, e, b⟩ = .next ⟨V, e.raiseIllegal, b⟩ := by
    rw [exec_command, hk]
  refine ⟨by omega, ?_, ?_, ?_, ?_, ?_⟩
  · exact hrun (k := .init c) (Engine.withCtx_none _ h)
  · exact hrun (k := .update len c) (Engine.withCtx_none _ h)
  · exact hrun (k := .final c) (Engine.withCtx_none _ h)
  · exact hrun (k := .clone c d) (Engine.clone_of_out_of_range (.inl h))
  · exact hrun (k := .clone d c) (Engine.clone_of_out_of_range (.inr h))

end Sys2Proof.Machine
end

section
/-! ### Staging bytes past a length -/

namespace Sys2Proof

/-- Banks whose first `n` bytes agree give one operand of `n` bytes (30_encoding.md R43, 40_parameter_block.md R52). -/
theorem take_bankBytes_congr {m n : Nat} {x y : Vector Word32 m}
    (h : ∀ p, p < n → (bankBytes x).getD p 0 = (bankBytes y).getD p 0) : (bankBytes x).take n = (bankBytes y).take n := by
  refine List.ext_getElem (by simp) fun p hx hy => ?_
  rw [List.length_take, lt_min_iff] at hx hy
  have hp := h p hx.1
  rw [List.getD_eq_getElem _ _ hx.2, List.getD_eq_getElem _ _ hy.2] at hp
  simpa using hp

end Sys2Proof

namespace Sys2Proof.Machine

variable {V : Variant}

/-- The engine after a change of its staging registers. -/
def Engine.mapStage (e : Engine V) (g : Staging → Staging) : Engine V := { e with stage := g e.stage }

/-- The context a command names is the same after a change of the staging registers. -/
theorem Engine.withCtx_mapStage (e : Engine V) (g : Staging → Staging) (c : BitVec 4) {f f' : Ctx V → Engine V}
    (hf : ∀ r, f' r = (f r).mapStage g) : (e.mapStage g).withCtx c f' = (e.withCtx c f).mapStage g := by
  simp only [Engine.withCtx, Engine.mapStage]
  cases e.ctx[c.toNat]? with
  | none => rfl
  | some r => exact hf r

/-- UPDATE reads the staging registers through its data operand alone (43_host_commands.md R104). -/
theorem Engine.update_mapStage (e : Engine V) {g : Staging → Staging} {len : BitVec 4}
    (h : updateData (g e.stage) len = updateData e.stage len) (c : BitVec 4) :
    (e.mapStage g).update len c = (e.update len c).mapStage g := by
  refine e.withCtx_mapStage g c fun r => ?_
  cases r.st with
  | empty => rfl
  | final => rfl
  | ready => exact congrArg (fun d => ((e.mapStage g).putWork c (absorb ⟨r, e.dp⟩ d)).setStatus .ok .ready) h

/-- Settles O51: the data operand is the first LEN bytes of DIN. -/
theorem unusedDinBytesAreNotRead : Obligations.UnusedDinBytesAreNotRead := by
  unfold Obligations.UnusedDinBytesAreNotRead
  intro V e b len c din h
  refine ⟨e.update len c, rfl, ?_⟩
  have hdata : updateData { e.stage with din := din } len = updateData e.stage len := take_bankBytes_congr h
  have hrun := e.update_mapStage (g := fun g => { g with din := din }) hdata c
  exact congrArg (fun e' => (.next ⟨V, e', b⟩ : Result)) hrun

end Sys2Proof.Machine
end

section
/-! ### Bytes of words and of padded fields -/

namespace Sys2Proof

theorem toNat_append_word32 (hi lo : Word32) : (hi ++ lo).toNat = lo.toNat + 2 ^ 32 * hi.toNat := by
  rw [BitVec.toNat_append, Nat.shiftLeft_eq, Nat.mul_comm, ← Nat.two_pow_add_eq_or_of_lt lo.isLt, Nat.add_comm]

theorem extractLsb'_high_eq_zero_iff (x : Word32) : x.extractLsb' 16 16 = 0 ↔ x.toNat < 2 ^ 16 := by
  rw [← BitVec.toNat_inj, BitVec.extractLsb'_toNat, Nat.shiftRight_eq_div_pow]
  have hx := x.isLt
  simp only [BitVec.ofNat_eq_ofNat, BitVec.toNat_zero]
  omega

theorem leNat_regBytes (x : Word32) : leNat (regBytes x) = x.toNat := by
  rw [regBytes, leNat_toLE]
  exact Nat.mod_eq_of_lt x.isLt

theorem toLE_toNat_append (hi lo : Word32) : toLE 8 (hi ++ lo).toNat = regBytes lo ++ regBytes hi := by
  have hval : (hi ++ lo).toNat = leNat (regBytes lo ++ regBytes hi) := by
    rw [toNat_append_word32, leNat_append, leNat_regBytes, leNat_regBytes, length_regBytes]
    rfl
  rw [hval]
  exact toLE_leNat (regBytes lo ++ regBytes hi)

theorem take_toLE {n m : Nat} (h : n ≤ m) (x : Nat) : (toLE m x).take n = toLE n x := by
  refine List.ext_getElem? fun i => ?_
  by_cases hi : i < n
  · rw [List.getElem?_take_of_lt hi, getElem?_toLE _ _ _ hi, getElem?_toLE _ _ _ (by omega)]
  · rw [List.getElem?_eq_none (by simp; omega), List.getElem?_eq_none (by simp; omega)]

theorem regBytes_eq (x : Word32) :
    regBytes x = [x.extractLsb' 0 8, x.extractLsb' 8 8, x.extractLsb' 16 8, x.extractLsb' 24 8] := by
  refine List.ext_getElem? fun i => ?_
  by_cases hi : i < 4
  · rw [getElem?_regBytes x i hi]
    interval_cases i <;> rfl
  · rw [List.getElem?_eq_none (by simp; omega), List.getElem?_eq_none (by simp; omega)]

@[simp] theorem getD_zeros (n p : Nat) : (zeros n).getD p 0 = 0 := by
  rw [zeros, List.getD_eq_getElem?_getD, List.getElem?_replicate]
  split <;> rfl

theorem getD_take (bs : List Byte) (n p : Nat) : (bs.take n).getD p 0 = if p < n then bs.getD p 0 else 0 := by
  rw [List.getD_eq_getElem?_getD, List.getElem?_take]
  split <;> simp

/-- A byte field padded with zeros reads as 0 past its length (40_parameter_block.md R52). -/
theorem getD_take_append_zeros (bs : List Byte) (n m p : Nat) :
    (bs.take n ++ zeros m).getD p 0 = if p < n then bs.getD p 0 else 0 := by
  rw [← getD_take]
  by_cases hp : p < (bs.take n).length
  · exact List.getD_append _ _ _ _ hp
  · rw [List.getD_append_right _ _ _ _ (by omega), getD_zeros, List.getD_eq_default _ _ (by omega)]

theorem getD_append_add {xs : List Byte} {n : Nat} (h : xs.length = n) (ys : List Byte) (p : Nat) :
    (xs ++ ys).getD (n + p) 0 = ys.getD p 0 := by
  rw [List.getD_append_right _ _ _ _ (by omega), h, Nat.add_sub_cancel_left]

end Sys2Proof
end

section
/-! ### Legal configurations -/

namespace Sys2Proof.Machine

variable {V : Variant}

/-- The node offset is CFG3 over CFG2 (40_parameter_block.md R51). -/
theorem toNat_snapshot_nodeOffset (g : Staging) : (snapshot g).nodeOffset.toNat = g.cfg[2].toNat + 2 ^ 32 * g.cfg[3].toNat :=
  toNat_append_word32 _ _

/-- S rejects a node offset past its 6 bytes, which is CFG3[31:16] ≠ 0 (40_parameter_block.md R53, V5_offset). -/
theorem nodeOffset_lt_iff_of_S (g : Staging) :
    (snapshot g).nodeOffset.toNat < 2 ^ Variant.S.noBits ↔ g.cfg[3].extractLsb' 16 16 = 0 := by
  have hlow := g.cfg[2].isLt
  rw [extractLsb'_high_eq_zero_iff, toNat_snapshot_nodeOffset, Variant.noBits]
  omega

/-- Settles O24: the bounds of each variant, V5_offset being free in B and CFG3[31:16] = 0 in S. -/
theorem validityIsTheFiveChecks : Obligations.ValidityIsTheFiveChecks := by
  unfold Obligations.ValidityIsTheFiveChecks
  intro V g
  rw [valid_iff]
  cases V with
  | B =>
    have hoff : (snapshot g).nodeOffset.toNat < 2 ^ Variant.B.noBits := (snapshot g).nodeOffset.isLt
    simp only [hoff, and_true, and_assoc]
    rfl
  | S =>
    rw [nodeOffset_lt_iff_of_S]
    simp only [and_assoc]
    rfl

end Sys2Proof.Machine
end

section
/-! ### The layout of the parameter block -/

namespace Sys2Proof

/-- The offset of the node depth, after the head and the node offset: 16 in B, 14 in S (40_parameter_block.md R55, R56). -/
def Variant.nodeDepthAt (V : Variant) : Nat := 8 + V.noBits / 8

/-- The offset of the salt, which the personalization follows to the end: 32 in B, 16 in S (40_parameter_block.md R55, R56). -/
def Variant.saltAt (V : Variant) : Nat := V.pb - V.persMax - V.saltMax

theorem Variant.nodeDepthAt_le (V : Variant) : V.nodeDepthAt ≤ 16 := by cases V <;> decide

theorem Variant.nodeDepthAt_add_two_le_saltAt (V : Variant) : V.nodeDepthAt + 2 ≤ V.saltAt := by cases V <;> decide

theorem Variant.saltMax_le (V : Variant) : V.saltMax ≤ 16 := by cases V <;> decide

end Sys2Proof

namespace Sys2Proof.Machine

variable {V : Variant} (g : Staging)

/-- The CFG registers hold the head of the block and the node offset, little-endian (40_parameter_block.md R51, R55). -/
theorem bankBytes_cfg :
    bankBytes g.cfg = paramHead (snapshot g) ++ (toLE 8 (snapshot g).nodeOffset.toNat ++ regBytes g.cfg[4]) := by
  have hcfg : g.cfg.toList = [g.cfg[0], g.cfg[1], g.cfg[2], g.cfg[3], g.cfg[4]] := by
    refine List.ext_getElem (by simp) fun i hi _ => ?_
    rw [Vector.length_toList] at hi
    interval_cases i <;> rfl
  have hoff : toLE 8 (snapshot g).nodeOffset.toNat = regBytes g.cfg[2] ++ regBytes g.cfg[3] := toLE_toNat_append _ _
  have hhead : paramHead (snapshot g) = regBytes g.cfg[0] ++ regBytes g.cfg[1] := by rw [regBytes_eq g.cfg[0]]; rfl
  rw [bankBytes, hcfg, hoff, hhead]
  simp

/-- The head and the node offset, of which S keeps 6 bytes, are the first bytes of the CFG registers (40_parameter_block.md R56). -/
theorem take_bankBytes_cfg (V : Variant) : (bankBytes g.cfg).take V.nodeDepthAt =
    paramHead (snapshot g) ++ toLE (V.noBits / 8) (snapshot g).nodeOffset.toNat := by
  have hlen : V.nodeDepthAt = (paramHead (snapshot g)).length + V.noBits / 8 := rfl
  have hno : V.noBits / 8 ≤ 8 := Nat.add_le_add_iff_left.1 V.nodeDepthAt_le
  rw [bankBytes_cfg, hlen, List.take_length_add_append, List.take_append_of_le_length (by rwa [length_toLE]), take_toLE hno]

theorem length_take_bankBytes_cfg (V : Variant) : ((bankBytes g.cfg).take V.nodeDepthAt).length = V.nodeDepthAt := by
  have hle := V.nodeDepthAt_le
  rw [List.length_take, length_bankBytes]
  omega

/-- The bytes before the salt: those of the first CFG registers, the node depth, the inner size and the reserved zeros. -/
def paramFront (V : Variant) (g : Staging) : List Byte :=
  (bankBytes g.cfg).take V.nodeDepthAt ++ ((regBytes g.cfg[4]).take 2 ++ zeros (V.saltAt - (V.nodeDepthAt + 2)))

/-- The block of either variant is the front, the salt and the personalization (40_parameter_block.md R55, R56). -/
theorem paramBlock_snapshot (V : Variant) :
    paramBlock V (snapshot g) = paramFront V g ++ ((snapshot g).saltField V ++ (snapshot g).persField V) := by
  have hsizes : (regBytes g.cfg[4]).take 2 = [(snapshot g).nodeDepth, (snapshot g).innerSize] := by rw [regBytes_eq]; rfl
  rw [paramFront, take_bankBytes_cfg, hsizes]
  cases V <;> simp [paramBlock, Variant.noBits] <;> rfl

theorem length_paramFront (V : Variant) : (paramFront V g).length = V.saltAt := by
  have hle := V.nodeDepthAt_add_two_le_saltAt
  rw [paramFront, List.length_append, length_take_bankBytes_cfg, List.length_append, List.length_take, length_regBytes, length_zeros]
  omega

theorem getD_paramBlock_of_lt_saltAt {p : Nat} (h : p < V.saltAt) :
    (paramBlock V (snapshot g)).getD p 0 = (paramFront V g).getD p 0 := by
  rw [paramBlock_snapshot, List.getD_append _ _ _ _ (by rwa [length_paramFront])]

/-- Byte `4k + i` of the block is byte `i` of CFGk, up to the end of the node offset. -/
theorem getD_paramBlock_cfg {k i : Nat} (hk : k < 5) (hi : i < 4) (h : 4 * k + i < V.nodeDepthAt) :
    (paramBlock V (snapshot g)).getD (4 * k + i) 0 = g.cfg[k].extractLsb' (8 * i) 8 := by
  have hle := V.nodeDepthAt_add_two_le_saltAt
  rw [getD_paramBlock_of_lt_saltAt g (by omega), paramFront, List.getD_append _ _ _ _ (by rwa [length_take_bankBytes_cfg]),
    getD_take, if_pos h, getD_bankBytes _ _ _ hk hi]

/-- The node depth and the inner size are the low bytes of CFG4. -/
theorem getD_paramBlock_nodeDepthAt_add {i : Nat} (hi : i < 2) :
    (paramBlock V (snapshot g)).getD (V.nodeDepthAt + i) 0 = g.cfg[4].extractLsb' (8 * i) 8 := by
  have hle := V.nodeDepthAt_add_two_le_saltAt
  rw [getD_paramBlock_of_lt_saltAt g (by omega), paramFront, getD_append_add (length_take_bankBytes_cfg g V),
    List.getD_append _ _ _ _ (by simpa using hi), getD_take, if_pos hi, List.getD_eq_getElem?_getD,
    getElem?_regBytes _ _ (by omega), Option.getD_some]

/-- The bytes between the inner size and the salt are reserved (40_parameter_block.md R55). -/
theorem getD_paramBlock_reserved {p : Nat} (h : V.nodeDepthAt + 2 ≤ p) (hp : p < V.saltAt) :
    (paramBlock V (snapshot g)).getD p 0 = 0 := by
  obtain ⟨q, rfl⟩ := Nat.exists_eq_add_of_le h
  rw [getD_paramBlock_of_lt_saltAt g hp, paramFront, Nat.add_assoc, getD_append_add (length_take_bankBytes_cfg g V),
    getD_append_add (by simp), getD_zeros]

theorem getD_saltField (p : Nat) : ((snapshot g).saltField V).getD p 0 =
    if p < (g.cfg[4].extractLsb' 16 8).toNat then (bankBytes g.salt).getD p 0 else 0 := getD_take_append_zeros _ _ _ _

theorem getD_persField (p : Nat) : ((snapshot g).persField V).getD p 0 =
    if p < (g.cfg[4].extractLsb' 24 8).toNat then (bankBytes g.pers).getD p 0 else 0 := getD_take_append_zeros _ _ _ _

theorem length_saltField (h : (snapshot g).valid V = true) : ((snapshot g).saltField V).length = V.saltMax := by
  obtain ⟨-, -, hsalt, -⟩ := (valid_iff _).1 h
  have hmax := V.saltMax_le
  simp only [HashConfig.saltField, List.length_append, List.length_take, length_snapshot_sb, length_zeros]
  omega

/-- The bytes of the SALT registers follow the front (40_parameter_block.md R52). -/
theorem getD_paramBlock_salt (h : (snapshot g).valid V = true) {k i : Nat} (hk : k < 4) (hi : i < 4)
    (hp : 4 * k + i < V.saltMax) :
    (paramBlock V (snapshot g)).getD (V.saltAt + (4 * k + i)) 0 =
      if 4 * k + i < (g.cfg[4].extractLsb' 16 8).toNat then g.salt[k].extractLsb' (8 * i) 8 else 0 := by
  rw [paramBlock_snapshot, getD_append_add (length_paramFront g V), List.getD_append _ _ _ _ (by rwa [length_saltField g h]),
    getD_saltField, getD_bankBytes _ _ _ hk hi]

/-- The bytes of the PERS registers follow the salt (40_parameter_block.md R52). -/
theorem getD_paramBlock_pers (h : (snapshot g).valid V = true) {k i : Nat} (hk : k < 4) (hi : i < 4) :
    (paramBlock V (snapshot g)).getD (V.saltAt + V.saltMax + (4 * k + i)) 0 =
      if 4 * k + i < (g.cfg[4].extractLsb' 24 8).toNat then g.pers[k].extractLsb' (8 * i) 8 else 0 := by
  rw [paramBlock_snapshot, Nat.add_assoc, getD_append_add (length_paramFront g V), getD_append_add (length_saltField g h),
    getD_persField, getD_bankBytes _ _ _ hk hi]

/-- Settles O27: the layout where the node offset has eight bytes and fourteen bytes are reserved. -/
theorem parameterBlockLayoutOfB : Obligations.ParameterBlockLayoutOfB := by
  unfold Obligations.ParameterBlockLayoutOfB
  intro g hv P byte saltLen persLen
  have hcfg (k i : Fin 4) : P.getD (4 * k.val + i.val) 0 = byte g.cfg[k.val] i.val :=
    getD_paramBlock_cfg (V := .B) g (by omega) i.isLt (show _ < 16 by omega)
  have hsizes (i : Fin 2) : P.getD (16 + i.val) 0 = byte g.cfg[4] i.val :=
    getD_paramBlock_nodeDepthAt_add (V := .B) g i.isLt
  exact ⟨length_paramBlock g hv, hcfg 0 0, hcfg 0 1, hcfg 0 2, hcfg 0 3, fun i hi => hcfg 1 ⟨i, hi⟩, fun i hi => hcfg 2 ⟨i, hi⟩,
    fun i hi => hcfg 3 ⟨i, hi⟩, hsizes 0, hsizes 1, fun _ => getD_paramBlock_reserved (V := .B) g,
    fun k i => getD_paramBlock_salt g hv k.isLt i.isLt (show _ < 16 by omega), fun k i => getD_paramBlock_pers g hv k.isLt i.isLt⟩

/-- Settles O28: the layout where the node offset has six bytes and no byte is reserved. -/
theorem parameterBlockLayoutOfS : Obligations.ParameterBlockLayoutOfS := by
  unfold Obligations.ParameterBlockLayoutOfS
  intro g hv P byte saltLen persLen
  have hcfg (k i : Fin 4) (h : 4 * k.val + i.val < 14) : P.getD (4 * k.val + i.val) 0 = byte g.cfg[k.val] i.val :=
    getD_paramBlock_cfg (V := .S) g (by omega) i.isLt h
  have hsizes (i : Fin 2) : P.getD (14 + i.val) 0 = byte g.cfg[4] i.val :=
    getD_paramBlock_nodeDepthAt_add (V := .S) g i.isLt
  exact ⟨length_paramBlock g hv, hcfg 0 0 (by decide), hcfg 0 1 (by decide), hcfg 0 2 (by decide), hcfg 0 3 (by decide),
    fun i hi => hcfg 1 ⟨i, hi⟩ (show 4 + i < 14 by omega), fun i hi => hcfg 2 ⟨i, hi⟩ (show 8 + i < 14 by omega),
    fun i hi => hcfg 3 ⟨i, by omega⟩ (show 12 + i < 14 by omega),
    hsizes 0, hsizes 1, fun k i => getD_paramBlock_salt g hv (by omega) i.isLt (show _ < 8 by omega),
    fun k i => getD_paramBlock_pers g hv (by omega) i.isLt⟩

end Sys2Proof.Machine
end

section
/-! ### Bank bytes past the lengths -/

namespace Sys2Proof.Machine

variable {V : Variant}

/-- The parameter block takes the salt and personalization banks through their padded fields (40_parameter_block.md R52, R61). -/
theorem paramBlock_putBanks {C : HashConfig} {sb pbk : List Byte} (hs : sb.take C.saltLen.toNat = C.sb.take C.saltLen.toNat)
    (hp : pbk.take C.persLen.toNat = C.pbk.take C.persLen.toNat) (kb : List Byte) :
    paramBlock V { C with kb := kb, sb := sb, pbk := pbk } = paramBlock V C := by
  cases V <;> simp only [paramBlock, paramHead, HashConfig.saltField, HashConfig.persField, hs, hp]

/-- The key block takes the key bank through the key (40_parameter_block.md R52, 42_streaming.md R83). -/
theorem keyBlock_putBanks {C : HashConfig} {kb : List Byte} (hk : kb.take C.kk.toNat = C.kb.take C.kk.toNat)
    (sb pbk : List Byte) : keyBlock V { C with kb := kb, sb := sb, pbk := pbk } = keyBlock V C := by
  simp only [keyBlock, HashConfig.keyBytes, hk]

/-- A context is constructed from the parts of the banks below the lengths alone (40_parameter_block.md R52). -/
theorem construct_putBanks {C : HashConfig} {kb sb pbk : List Byte} (hk : kb.take C.kk.toNat = C.kb.take C.kk.toNat)
    (hs : sb.take C.saltLen.toNat = C.sb.take C.saltLen.toNat) (hp : pbk.take C.persLen.toNat = C.pbk.take C.persLen.toNat)
    (dp : Datapath V) : construct { C with kb := kb, sb := sb, pbk := pbk } dp = construct C dp := by
  simp only [construct, freshCtx, initialH, paramBlock_putBanks hs hp, keyBlock_putBanks hk]

/-- INIT reads the staging registers through the validity and the context of their configuration (43_host_commands.md R103). -/
theorem Engine.init_mapStage (e : Engine V) {g : Staging → Staging}
    (hvalid : (snapshot (g e.stage)).valid V = (snapshot e.stage).valid V)
    (hctx : construct (snapshot (g e.stage)) e.dp = construct (snapshot e.stage) e.dp) (c : BitVec 4) :
    (e.mapStage g).init c = (e.init c).mapStage g := by
  refine e.withCtx_mapStage g c fun _ => ?_
  simp only [Engine.mapStage, hvalid, hctx]
  split <;> rfl

/-- Settles O52: the key, the salt and the personalization are the bytes of their banks below the three lengths. -/
theorem bankBytesPastTheLengthsAreNotRead : Obligations.BankBytesPastTheLengthsAreNotRead := by
  unfold Obligations.BankBytesPastTheLengthsAreNotRead
  intro V e b c key salt pers hkey hsalt hpers
  refine ⟨e.init c, rfl, ?_⟩
  have hctx := construct_putBanks (C := snapshot e.stage) (take_bankBytes_congr hkey) (take_bankBytes_congr hsalt)
    (take_bankBytes_congr hpers) e.dp
  have hrun := e.init_mapStage (g := fun g => { g with key := key, salt := salt, pers := pers }) rfl hctx c
  exact congrArg (fun e' => (.next ⟨V, e', b⟩ : Result)) hrun

end Sys2Proof.Machine
end

section
/-! ### G and the half-rounds -/

namespace Sys2Proof

/-- The four places of the working vector a quadruple names. -/
def Quad.indices (q : Quad) : List (Fin 16) := [q.a, q.b, q.c, q.d]

theorem nodup_indices_quads : ∀ j : Fin 8, quads[j].indices.Nodup := by decide

/-- The columns share no place, nor do the diagonals (41_compression.md R68, R71). -/
theorem disjoint_indices_quads : ∀ j k : Fin 8, j ≠ k → (j.val < 4 ↔ k.val < 4) →
    quads[j].indices.Disjoint quads[k].indices := by
  simp only [List.disjoint_iff_ne]
  decide

end Sys2Proof

namespace Sys2Proof.Machine

variable {V : Variant}

/-- The words of the working vector at the four places of a quadruple. -/
def wordsAt (q : Quad) (v : Vector (Word V) 16) : Word V × Word V × Word V × Word V := (v[q.a], v[q.b], v[q.c], v[q.d])

theorem wordsAt_eq_iff (q : Quad) (v v' : Vector (Word V) 16) : wordsAt q v = wordsAt q v' ↔ ∀ i ∈ q.indices, v[i] = v'[i] := by
  simp only [wordsAt, Prod.mk.injEq, Quad.indices, List.forall_mem_cons, List.not_mem_nil, false_implies, implies_true, and_true]

/-- Four sub-steps of R77, with the message word and the rotations of one half of G. -/
def mixHalf (v : Vector (Word V) 16) (q : Quad) (x : Word V) (n n' : Nat) : Vector (Word V) 16 :=
  let v := v.set q.a (v[q.a] + v[q.b] + x)
  let v := v.set q.d (rotr (v[q.d] ^^^ v[q.a]) n)
  let v := v.set q.c (v[q.c] + v[q.d])
  v.set q.b (rotr (v[q.b] ^^^ v[q.c]) n')

/-- The four sub-steps of `mixHalf` on the four words alone. -/
def halfWords (x : Word V) (n n' : Nat) : Word V × Word V × Word V × Word V → Word V × Word V × Word V × Word V
  | (a, b, c, d) =>
    let a := a + b + x
    let d := rotr (d ^^^ a) n
    let c := c + d
    let b := rotr (b ^^^ c) n'
    (a, b, c, d)

theorem mixG_eq_mixHalf (v : Vector (Word V) 16) (q : Quad) (mx my : Word V) :
    mixG v q mx my = mixHalf (mixHalf v q mx V.rot1 V.rot2) q my V.rot3 V.rot4 := rfl

theorem wordsAt_mixHalf {q : Quad} (hq : q.indices.Nodup) (v : Vector (Word V) 16) (x : Word V) (n n' : Nat) :
    wordsAt q (mixHalf v q x n n') = halfWords x n n' (wordsAt q v) := by
  obtain ⟨a, b, c, d⟩ := q
  simp only [Quad.indices, List.nodup_cons, List.mem_cons, List.not_mem_nil, or_false, not_or, Fin.ext_iff] at hq
  obtain ⟨⟨hab, hac, had⟩, ⟨hbc, hbd⟩, hcd, -⟩ := hq
  simp [wordsAt, mixHalf, halfWords, hab, hac, had, hbc, hbd, hcd, Ne.symm hab, Ne.symm hac, Ne.symm had, Ne.symm hbc,
    Ne.symm hbd, Ne.symm hcd]

/-- The words of a quadruple after G are the eight sub-steps on the words before it (41_compression.md R77). -/
theorem wordsAt_mixG {q : Quad} (hq : q.indices.Nodup) (v : Vector (Word V) 16) (mx my : Word V) :
    wordsAt q (mixG v q mx my) = halfWords my V.rot3 V.rot4 (halfWords mx V.rot1 V.rot2 (wordsAt q v)) := by
  rw [mixG_eq_mixHalf, wordsAt_mixHalf hq, wordsAt_mixHalf hq]

/-- A write to another place leaves a word alone. -/
theorem getElem_set_of_ne {i k : Fin 16} (h : i ≠ k) (v : Vector (Word V) 16) (x : Word V) : (v.set k x)[i] = v[i] :=
  Vector.getElem_set_ne _ _ (Fin.val_ne_of_ne h.symm)

theorem getElem_mixHalf_of_not_mem {q : Quad} {i : Fin 16} (hi : i ∉ q.indices) (v : Vector (Word V) 16) (x : Word V)
    (n n' : Nat) : (mixHalf v q x n n')[i] = v[i] := by
  simp only [Quad.indices, List.mem_cons, List.not_mem_nil, or_false, not_or] at hi
  obtain ⟨ha, hb, hc, hd⟩ := hi
  unfold mixHalf
  rw [getElem_set_of_ne hb, getElem_set_of_ne hc, getElem_set_of_ne hd, getElem_set_of_ne ha]

/-- G leaves every other word alone (41_compression.md R77). -/
theorem getElem_mixG_of_not_mem {q : Quad} {i : Fin 16} (hi : i ∉ q.indices) (v : Vector (Word V) 16) (mx my : Word V) :
    (mixG v q mx my)[i] = v[i] := by
  rw [mixG_eq_mixHalf, getElem_mixHalf_of_not_mem hi, getElem_mixHalf_of_not_mem hi]

/-- Settles O53: the quadruple and the row are looked up in the model's tables, and the words of the quadruple are those of `wordsAt_mixG`. -/
theorem mixerIsTheEightSubsteps : Obligations.MixerIsTheEightSubsteps := by
  unfold Obligations.MixerIsTheEightSubsteps
  intro V v m r j mx my Q SIGMA q s rot R a1 d1 c1 b1 a2 d2 c2 b2 v'
  have hQ : ∀ k : Fin 8, Q.getD k.val ⟨0, 0, 0, 0⟩ = quads[k] := by decide
  have hSIGMA : ∀ (k : Fin 10) (i : Fin 16), (SIGMA.getD k.val []).getD i.val 0 = sigma[k][i] := by decide
  have hR : R = (V.rot1, V.rot2, V.rot3, V.rot4) := by cases V <;> rfl
  have hq : q = quads[j] := hQ j
  have hwords : wordsAt q v' = (a2, b2, c2, d2) := by
    rw [wordsAt_mixG (hq ▸ nodup_indices_quads j)]
    simp only [a2, b2, c2, d2, a1, b1, c1, d1, hR]
    rfl
  obtain ⟨ha, hb, hc, hd⟩ : v'[q.a] = a2 ∧ v'[q.b] = b2 ∧ v'[q.c] = c2 ∧ v'[q.d] = d2 := by
    simpa only [wordsAt, Prod.mk.injEq] using hwords
  have hframe : ∀ i : Fin 16, i ≠ q.a → i ≠ q.b → i ≠ q.c → i ≠ q.d → v'[i] = v[i] := fun i hia hib hic hid =>
    getElem_mixG_of_not_mem (by simp [Quad.indices, hia, hib, hic, hid]) v mx my
  have hword (i : Fin 16) : m[s.getD i.val 0] = m[(sigmaRow r)[i]] :=
    congrArg (m[·]) (hSIGMA ⟨r % 10, Nat.mod_lt _ (by decide)⟩ i)
  refine ⟨ha, hb, hc, hd, hframe, ?_⟩
  rw [hq, hword ⟨2 * j.val, by omega⟩, hword ⟨2 * j.val + 1, by omega⟩]
  rfl

/-- G reads no word but the four of its quadruple. -/
theorem getElem_mixG_congr {q : Quad} (hq : q.indices.Nodup) {v v' : Vector (Word V) 16} (h : ∀ i ∈ q.indices, v[i] = v'[i])
    (mx my : Word V) : ∀ i ∈ q.indices, (mixG v q mx my)[i] = (mixG v' q mx my)[i] := by
  rw [← wordsAt_eq_iff] at h ⊢
  rw [wordsAt_mixG hq, wordsAt_mixG hq, h]

/-- G on two quadruples that share no place can be done in either order (41_compression.md R71). -/
theorem mixG_comm {p q : Quad} (hp : p.indices.Nodup) (hq : q.indices.Nodup) (hpq : p.indices.Disjoint q.indices)
    (v : Vector (Word V) 16) (mx my mx' my' : Word V) :
    mixG (mixG v p mx my) q mx' my' = mixG (mixG v q mx' my') p mx my := by
  have hword (i : Fin 16) : (mixG (mixG v p mx my) q mx' my')[i] = (mixG (mixG v q mx' my') p mx my)[i] := by
    by_cases hi : i ∈ q.indices
    · calc (mixG (mixG v p mx my) q mx' my')[i]
          = (mixG v q mx' my')[i] := getElem_mixG_congr hq (fun k hk => getElem_mixG_of_not_mem (hpq.symm hk) ..) _ _ i hi
        _ = (mixG (mixG v q mx' my') p mx my)[i] := (getElem_mixG_of_not_mem (hpq.symm hi) ..).symm
    · rw [getElem_mixG_of_not_mem hi]
      by_cases hi' : i ∈ p.indices
      · exact (getElem_mixG_congr hp (fun k hk => getElem_mixG_of_not_mem (hpq hk) ..) _ _ i hi').symm
      · rw [getElem_mixG_of_not_mem hi', getElem_mixG_of_not_mem hi', getElem_mixG_of_not_mem hi]
  exact Vector.ext fun i hi => hword ⟨i, hi⟩

/-- Two steps of one half-round can be done in either order (41_compression.md R71). -/
theorem mixAt_comm (m : Vector (Word V) 16) (r : Nat) {j k : Fin 8} (h : j.val < 4 ↔ k.val < 4) (v : Vector (Word V) 16) :
    mixAt m r k (mixAt m r j v) = mixAt m r j (mixAt m r k v) := by
  by_cases hjk : j = k
  · rw [hjk]
  · exact mixG_comm (nodup_indices_quads j) (nodup_indices_quads k) (disjoint_indices_quads j k hjk h) ..

/-- Settles O54: the steps of one half-round commute, two by two. -/
theorem halfRoundOrderIsFree : Obligations.HalfRoundOrderIsFree := by
  unfold Obligations.HalfRoundOrderIsFree
  intro V m v r half order hhalf horder
  have hside : ∀ j ∈ half, ∀ k ∈ half, (j.val < 4 ↔ k.val < 4) := by
    obtain rfl | rfl := hhalf <;> decide
  exact horder.foldl_eq' (fun j hj k hk w => mixAt_comm m r (hside j (horder.mem_iff.1 hj) k (horder.mem_iff.1 hk)) w) v

end Sys2Proof.Machine
end

section
/-! ### The scheduler -/

namespace Sys2Proof.Machine

variable {V : Variant}

/-- The working vector after `n` steps in all: the whole rounds `0 .. n / 8 − 1`, then the first `n mod 8` steps of round `n / 8`
(41_compression.md R66, R69). -/
def mixedAfter (m v : Vector (Word V) 16) (n : Nat) : Vector (Word V) 16 := roundUpTo m (n / 8) (mixRounds m v (n / 8)) (n % 8)

/-- The step of the round that is due after `n` steps in all. -/
def stepAfter (n : Nat) : Fin 8 := ⟨n % 8, Nat.mod_lt n (by decide)⟩

theorem mixedAfter_eight_mul (m v : Vector (Word V) 16) (k : Nat) : mixedAfter m v (8 * k) = mixRounds m v k := by
  rw [mixedAfter, Nat.mul_mod_right, Nat.mul_div_cancel_left k (by decide)]
  rfl

/-- The next step is step `n mod 8` of round `n / 8`. -/
theorem mixedAfter_succ (m v : Vector (Word V) 16) (n : Nat) :
    mixedAfter m v (n + 1) = mixAt m (n / 8) (stepAfter n) (mixedAfter m v n) := by
  have hstep : mixAt m (n / 8) (stepAfter n) (mixedAfter m v n) = roundUpTo m (n / 8) (mixRounds m v (n / 8)) (n % 8 + 1) :=
    (roundUpTo_succ ..).symm
  by_cases h : n % 8 < 7
  · rw [hstep, mixedAfter, show (n + 1) / 8 = n / 8 by omega, show (n + 1) % 8 = n % 8 + 1 by omega]
  · rw [hstep, show n + 1 = 8 * (n / 8 + 1) by omega, mixedAfter_eight_mul, mixRounds_succ, show n % 8 + 1 = 8 by omega]

/-- Before `8·R` steps the scheduler is in MIX, at the round, the step and the working vector of the nested rounds
(41_compression.md R70). -/
theorem mixSteps_eq_of_lt (m v : Vector (Word V) 16) {n : Nat} (h : n < 8 * V.rounds) :
    Datapath.mixSteps n ⟨v, m, .mix, 0, 0⟩ = ⟨mixedAfter m v n, m, .mix, n / 8, stepAfter n⟩ := by
  induction n with
  | zero => rfl
  | succ n ih =>
    rw [mixSteps_succ, ih (by omega), mixedAfter_succ]
    by_cases hj : n % 8 < 7
    · rw [mixStep_of_lt _ _ _ _ hj, show (n + 1) / 8 = n / 8 by omega]
      congr 1
      exact Fin.ext (show n % 8 + 1 = (n + 1) % 8 by omega)
    · have hlast : stepAfter n = 7 := Fin.ext (show n % 8 = 7 by omega)
      rw [hlast, mixStep_of_round_lt _ _ _ (by omega), show (n + 1) / 8 = n / 8 + 1 by omega]
      congr 1
      exact Fin.ext (show 0 = (n + 1) % 8 by omega)

/-- After `8·R` steps the scheduler is in FOLD with the working vector of all the rounds (41_compression.md R66, R70). -/
theorem mixSteps_eight_mul_rounds (m v : Vector (Word V) 16) :
    Datapath.mixSteps (8 * V.rounds) ⟨v, m, .mix, 0, 0⟩ = ⟨mixRounds m v V.rounds, m, .fold, V.rounds - 1, 7⟩ := by
  have hpos := rounds_pos (V := V)
  obtain ⟨n, hn⟩ : ∃ n, 8 * V.rounds = n + 1 := ⟨8 * V.rounds - 1, by omega⟩
  have hround : n / 8 = V.rounds - 1 := by omega
  have hlast : stepAfter n = 7 := Fin.ext (show n % 8 = 7 by omega)
  rw [← mixedAfter_eight_mul, hn, mixSteps_succ, mixSteps_eq_of_lt m v (by omega), mixedAfter_succ, hround, hlast, mixStep_of_last]

/-- A MIX step keeps the message words and does the step that is due (41_compression.md R70). -/
theorem mixStep_m_v_of_mix {dp : Datapath V} (h : dp.phase = .mix) :
    dp.mixStep.m = dp.m ∧ dp.mixStep.v = mixAt dp.m dp.r dp.j dp.v := by
  obtain ⟨v, m, phase, r, j⟩ := dp
  cases h
  simp only [Datapath.mixStep]
  split_ifs <;> exact ⟨rfl, rfl⟩

/-- Settles O55: the step machine at each step, then its last state, whose working vector is that of the nested rounds. -/
theorem schedulerComputesTheRounds : Obligations.SchedulerComputesTheRounds := by
  unfold Obligations.SchedulerComputesTheRounds
  intro V h block t f0 f1 at_ last
  have hlast : last = ⟨_, _, .fold, V.rounds - 1, 7⟩ := mixSteps_eight_mul_rounds (parseBlock V block) (initV h t f0 f1)
  have hfold : foldOut h last.v = compress h block t f0 f1 := by rw [hlast, compress]
  refine ⟨fun n hn => ?_, by rw [hlast], hfold, fun i => ?_⟩
  · have hat : at_ n = ⟨_, _, .mix, n / 8, stepAfter n⟩ := mixSteps_eq_of_lt (parseBlock V block) (initV h t f0 f1) hn
    have hphase : (at_ n).phase = .mix := by rw [hat]
    have hr : (at_ n).r = n / 8 := by rw [hat]
    have hnext : at_ (n + 1) = (at_ n).mixStep := mixSteps_succ ..
    obtain ⟨hm, hv⟩ := mixStep_m_v_of_mix hphase
    exact ⟨hphase, hr, congrArg (·.j.val) hat, by rw [hnext, hm], by rw [hnext, hv, hr]⟩
  · rw [← hfold]
    simp [foldOut]

end Sys2Proof.Machine
end

section
/-! ### LOAD -/

namespace Sys2Proof.Machine

variable {V : Variant}

/-- Byte `i` of word `k` of a block is its byte `k·wb + i` (20_memory.md R33, 41_compression.md R64). -/
theorem wordAt_byte (block : List Byte) (k : Nat) {i : Nat} (hi : i < V.wb) :
    (wordAt V block k).extractLsb' (8 * i) 8 = block.getD (k * V.wb + i) 0 := by
  have hw : V.w = 8 * V.wb := by cases V <;> rfl
  rw [wordAt, leNat_byte _ _ _ (by omega), List.getD_eq_getElem?_getD, List.getD_eq_getElem?_getD,
    getElem?_slice _ _ _ _ (by rw [Nat.succ_mul]; omega)]

/-- Settles O56: the words of `initV` and of the IV one by one, the counter words as the counter modulo and divided by `2^w`. -/
theorem workingVectorInitialization : Obligations.WorkingVectorInitialization := by
  unfold Obligations.WorkingVectorInitialization
  intro V h block t f0 f1 IV dp
  have hIV : ∀ i : Fin 8, (iv V)[i] = IV i.val := by cases V <;> decide
  have hlow : counterLow t = BitVec.ofNat V.w t.toNat := by simp [counterLow, BitVec.extractLsb']
  have hhigh : counterHigh t = BitVec.ofNat V.w (t.toNat / 2 ^ V.w) := by
    simp only [counterHigh, BitVec.extractLsb', Nat.shiftRight_eq_div_pow]
  have hv8 : ∀ i : Fin 8, dp.v[i.val] = h[i] := by
    intro i
    fin_cases i <;> rfl
  have hv12 : ∀ i : Fin 4, dp.v[i.val + 8] = IV i.val := by
    intro i
    rw [← hIV ⟨i.val, by omega⟩]
    fin_cases i <;> rfl
  refine ⟨hIV, hv8, hv12, ?_, ?_, ?_, ?_, by cases V <;> rfl, fun k i hi => ?_⟩
  · exact congrArg₂ (· ^^^ ·) hlow (hIV 4)
  · exact congrArg₂ (· ^^^ ·) hhigh (hIV 5)
  · exact congrArg (f0 ^^^ ·) (hIV 6)
  · exact congrArg (f1 ^^^ ·) (hIV 7)
  · have hm : dp.m[k] = wordAt V block k.val := Vector.getElem_ofFn ..
    rw [hm, wordAt_byte block k.val hi]

end Sys2Proof.Machine
end

section
/-! ### The chaining value a compression leaves -/

namespace Sys2Proof.Machine

variable {V : Variant}

/-- A compression on the datapath gives the context the chaining value of the nested rounds and keeps its other fields
(41_compression.md R63, R70). -/
theorem compressInto_c (c : Ctx V) (block : List Byte) (f0 f1 : Word V) :
    (compressInto c block f0 f1).c = { c with h := compress c.h block c.t f0 f1 } := by
  rw [compressInto, Datapath.compress, Datapath.load, mixSteps_eight_mul_rounds, compress]

/-- The oldest block is compressed with the counter at its end and flags `(0, 0)` (42_streaming.md R89). -/
theorem compressOldest_h (x : Work V) :
    (compressOldest x).c.h = compress x.c.h (x.c.buf.take V.bb) (x.c.t + BitVec.ofNat (2 * V.w) V.bb) 0 0 := by
  simp only [compressOldest, compressInto_c, advance_h, advance_t]

/-- The context that finalize leaves (42_streaming.md R93). -/
theorem finalizeReady_c (c : Ctx V) :
    (finalizeReady c).c =
      let t := c.t + BitVec.ofNat (2 * V.w) c.buf.length
      let f1 := lastNodeFlag V c.ln
      let h := compress c.h (c.buf ++ zeros (V.bb - c.buf.length)) t (ones V) f1
      { c with st := .final, h := h, t := t, f0 := ones V, f1 := f1, buf := [], dig := (serialize h).take c.nn.toNat } := by
  simp only [finalizeReady, compressInto_c]
  rfl

theorem finalize_of_ready {x : Work V} (hs : x.c.st = .ready) : finalize x = finalizeReady x.c := by
  rw [finalize, hs]

end Sys2Proof.Machine
end

section
/-! ### Absorbing in pieces -/

namespace Sys2Proof.Machine

variable {V : Variant}

theorem absorb_nil {x : Work V} (h : x.c.buf.length ≤ V.bb) : absorb x [] = x := by
  rw [absorb_of_le x [] (by rwa [List.append_nil]), List.append_nil]

/-- Two pieces in order are their concatenation: the loop on the first piece leaves the loop on both only the bytes of the second
(42_streaming.md R89, R91). -/
theorem absorb_append (x : Work V) (d d' : List Byte) : absorb x (d ++ d') = absorb (absorb x d) d' := by
  have hlen : (x.c.buf ++ d).length ≤ (x.c.buf ++ d ++ d').length := by simp
  calc absorb x (d ++ d')
      = drain (x.c.buf ++ d ++ d').length ⟨{ x.c with buf := x.c.buf ++ d ++ d' }, x.dp⟩ := by rw [absorb, List.append_assoc]
    _ = absorb (drain (x.c.buf ++ d ++ d').length ⟨{ x.c with buf := x.c.buf ++ d }, x.dp⟩) d' :=
        drain_append _ ⟨{ x.c with buf := x.c.buf ++ d }, x.dp⟩ d' le_rfl
    _ = absorb (absorb x d) d' := congrArg (absorb · d') (drain_enough _ _ _ hlen le_rfl)

/-- Settles O58, by induction on the pieces. -/
theorem chunkingIndependence : Obligations.ChunkingIndependence := by
  unfold Obligations.ChunkingIndependence
  intro V x pieces hx
  induction pieces generalizing x with
  | nil => exact (absorb_nil hx).symm
  | cons d pieces ih =>
    rw [List.foldl_cons, ih (absorb x d) (absorb_buf_le x d), List.flatten_cons, absorb_append]

end Sys2Proof.Machine
end

section
/-! ### The blocks a context has compressed -/

namespace Sys2Proof.Machine

variable {V : Variant}

/-- What every turn of the loop of absorb keeps, the loop keeps (42_streaming.md R89). -/
theorem drain_induction {P : Work V → Prop} (hturn : ∀ y : Work V, V.bb < y.c.buf.length → P y → P (compressOldest y)) (n : Nat)
    {x : Work V} (hx : P x) : P (drain n x) := by
  induction n generalizing x with
  | zero => exact hx
  | succ n ih =>
    by_cases hb : V.bb < x.c.buf.length
    · rw [drain_succ_of_lt n x hb]; exact ih (hturn x hb hx)
    · rwa [drain_of_le _ x (by omega)]

/-- The context stands `k` blocks into `data`: those are compressed in order from the chaining value `h`, and the bytes after them are
in the buffer. The loop of absorb keeps this at each turn (42_streaming.md R89, R91). -/
def Ctx.Chained (c : Ctx V) (h : Vector (Word V) 8) (data : List Byte) (k : Nat) : Prop :=
  c.Streamed data.length k ∧ c.h = chainBlocks V h data k ∧ c.buf = data.drop (k * V.bb)

/-- A turn of the loop compresses the next block. -/
theorem Ctx.Chained.compressOldest {x : Work V} {h : Vector (Word V) 8} {data : List Byte} {k : Nat} (hx : x.c.Chained h data k)
    (hlt : V.bb < x.c.buf.length) : (compressOldest x).c.Chained h data (k + 1) := by
  obtain ⟨hpos, hh, hbuf⟩ := hx
  have hnext := hpos.compressOldest hlt
  have ht : x.c.t + BitVec.ofNat (2 * V.w) V.bb = BitVec.ofNat (2 * V.w) ((k + 1) * V.bb) := by
    rw [Nat.mul_comm (k + 1)]; exact hnext.2.1
  have hblock : x.c.buf.take V.bb = slice data (k * V.bb) ((k + 1) * V.bb) := by
    rw [hbuf, slice, Nat.succ_mul, Nat.add_sub_cancel_left]
  refine ⟨hnext, ?_, ?_⟩
  · rw [compressOldest_h, hh, ht, hblock, chainBlocks]
  · rw [compressOldest_buf, hbuf, List.drop_drop, Nat.succ_mul]

/-- When at most a block is left in the buffer, every block but the last is compressed. -/
theorem Ctx.Chained.eq_blocksDone {c : Ctx V} {h : Vector (Word V) 8} {data : List Byte} {k : Nat} (hc : c.Chained h data k)
    (hle : c.buf.length ≤ V.bb) : k = blocksDone V data.length := by
  obtain ⟨⟨hlen, -, hk⟩, -, -⟩ := hc
  exact Machine.eq_blocksDone (by rw [Nat.mul_succ]; omega) (by omega)

/-- A new context that absorbs `data` stands before its last block (42_streaming.md R91, R92). -/
theorem absorb_chained {x : Work V} (hbuf : x.c.buf = []) (ht : x.c.t = 0) (data : List Byte) :
    (absorb x data).c.Chained x.c.h data (blocksDone V data.length) := by
  have hstart : ({ x.c with buf := x.c.buf ++ data } : Ctx V).Chained x.c.h data 0 :=
    ⟨⟨by simp [hbuf], by simp [ht], .inl rfl⟩, rfl, by simp [hbuf]⟩
  obtain ⟨k, hk⟩ : ∃ k, (absorb x data).c.Chained x.c.h data k :=
    drain_induction (P := fun y => ∃ k, y.c.Chained x.c.h data k) (fun _ hlt ⟨k, hk⟩ => ⟨k + 1, hk.compressOldest hlt⟩) _ ⟨0, hstart⟩
  rwa [← hk.eq_blocksDone (absorb_buf_le x data)]

/-- Settles O59: the stream position that the loop keeps, and the fields it never writes. -/
theorem absorbedStreamPosition : Obligations.AbsorbedStreamPosition := by
  unfold Obligations.AbsorbedStreamPosition
  intro V x data hbuf ht k y
  obtain ⟨⟨-, hy, -⟩, hh, hrest⟩ : y.c.Chained x.c.h data k := absorb_chained hbuf ht data
  obtain ⟨hst, hf0, hf1, hnn, hln, hdig⟩ := absorb_keeps x data
  exact ⟨hh, hrest, by rw [hy, Nat.mul_comm V.bb], hf0, hf1, hst, hnn, hln, hdig⟩

end Sys2Proof.Machine
end

section
/-! ### The digest of a session -/

namespace Sys2Proof.Machine

variable {V : Variant}

/-- A session without a key absorbs an empty key block (42_streaming.md R83, R84). -/
theorem construct_eq_absorb (C : HashConfig) (dp : Datapath V) : construct C dp = absorb ⟨freshCtx V C, dp⟩ (keyBlock V C) := by
  unfold construct
  split
  · next hk => rw [keyBlock, if_pos hk, absorb_nil (Nat.zero_le _)]
  · rfl

/-- A context that is READY caches the digest of the bytes it stands in, when at most a block of them is left
(42_streaming.md R93, R94). -/
theorem finalizeReady_dig_of_chained {c : Ctx V} {C : HashConfig} {msg : List Byte}
    (hc : c.Chained (initialH V C) (keyBlock V C ++ msg) (blocksDone V (keyBlock V C ++ msg).length))
    (hnn : c.nn = C.nn) (hln : c.ln = C.lastNode) : (finalizeReady c).c.dig = hashOf V C msg := by
  obtain ⟨⟨hlen, ht, -⟩, hh, hbuf⟩ := hc
  have hcount : c.t + BitVec.ofNat (2 * V.w) c.buf.length = BitVec.ofNat (2 * V.w) (keyBlock V C ++ msg).length := by
    rw [ht, ← BitVec.ofNat_add, Nat.add_comm, hlen]
  rw [hbuf] at hcount
  simp only [finalizeReady_c, hashOf, hbuf, hcount, hh, hnn, hln]

/-- Settles O60: the key block and the pieces are one absorb of a new context, which then stands before the last block. -/
theorem sessionDigestIsTheHashOfTheMessage : Obligations.SessionDigestIsTheHashOfTheMessage := by
  unfold Obligations.SessionDigestIsTheHashOfTheMessage
  intro V g dp pieces hv y
  let C := snapshot g
  let x := absorb ⟨freshCtx V C, dp⟩ (keyBlock V C ++ pieces.flatten)
  obtain ⟨hst, -, -, hnn, hln, -⟩ : x.c.st = .ready ∧ _ := absorb_keeps ⟨freshCtx V C, dp⟩ _
  have hx : pieces.foldl absorb (construct C dp) = x := by
    rw [construct_eq_absorb, chunkingIndependence _ _ _ (absorb_buf_le _ _), ← absorb_append]
  have hy : y = finalizeReady x.c := by rw [← finalize_of_ready hst, ← hx]
  obtain ⟨⟨-, hnnMax⟩, -⟩ := (valid_iff C).1 hv
  rw [hy]
  refine ⟨rfl, finalizeReady_dig_of_chained (absorb_chained rfl rfl _) hnn hln, ?_⟩
  rw [finalizeReady_dig_length _ (by rwa [hnn]), hnn]
  rfl

end Sys2Proof.Machine
end

section
/-! ### The outcome of a command by the state of its context -/

namespace Sys2Proof.Machine

variable {V : Variant} (e : Engine V) (b : Bus) (c d len : BitVec 4)

theorem exec_init : exec (.init c) ⟨V, e, b⟩ = .next ⟨V, e.init c, b⟩ := exec_command (.init c) e b
theorem exec_update : exec (.update len c) ⟨V, e, b⟩ = .next ⟨V, e.update len c, b⟩ := exec_command (.update len c) e b
theorem exec_final : exec (.final c) ⟨V, e, b⟩ = .next ⟨V, e.final c, b⟩ := exec_command (.final c) e b
theorem exec_clone : exec (.clone d c) ⟨V, e, b⟩ = .next ⟨V, e.clone d c, b⟩ := exec_command (.clone d c) e b

variable {e c d len} {r : Ctx V}

/-- INIT of an invalid configuration (60_exceptions.md R128, 42_streaming.md R86). -/
theorem Engine.init_of_invalid (hc : c.toNat < e.ctx.length) (hv : (snapshot e.stage).valid V = false) :
    e.init c = (e.putCtx c (Ctx.emptyRecord V)).raise .config .empty := by
  rw [Engine.init, Engine.withCtx_some _ (List.getElem?_eq_getElem hc)]
  simp only [hv, Bool.false_eq_true, if_false]

theorem Engine.update_of_ready (hr : e.ctx[c.toNat]? = some r) (hs : r.st = .ready) :
    e.update len c = (e.putWork c (absorb ⟨r, e.dp⟩ (updateData e.stage len))).setStatus .ok .ready := by
  rw [Engine.update, Engine.withCtx_some _ hr, hs]

theorem Engine.update_of_final (hr : e.ctx[c.toNat]? = some r) (hs : r.st = .final) :
    e.update len c = e.raise .state .final := by
  rw [Engine.update, Engine.withCtx_some _ hr, hs]

theorem Engine.final_of_empty (hr : e.ctx[c.toNat]? = some r) (hs : r.st = .empty) : e.final c = e.raise .noctx .empty := by
  rw [Engine.final, Engine.withCtx_some _ hr, hs]

theorem Engine.final_of_ready (hr : e.ctx[c.toNat]? = some r) (hs : r.st = .ready) :
    e.final c = ((e.putWork c (finalizeReady r)).putDigest (finalizeReady r).c.dig).setStatus .ok .final := by
  rw [Engine.final, Engine.withCtx_some _ hr, hs, finalize_of_ready hs]

theorem Engine.clone_of_empty (hd : d.toNat < e.ctx.length) (hr : e.ctx[c.toNat]? = some r) (hs : r.st = .empty) :
    e.clone d c = e.raise .noctx .empty := by
  rw [Engine.clone, Engine.withCtx_some _ (List.getElem?_eq_getElem hd), Engine.withCtx_some _ hr, hs]

theorem Engine.clone_of_ne_empty (hd : d.toNat < e.ctx.length) (hr : e.ctx[c.toNat]? = some r)
    (hs : r.st ≠ .empty) : e.clone d c = (e.putCtx d r).setStatus .ok r.st := by
  rw [Engine.clone, Engine.withCtx_some _ (List.getElem?_eq_getElem hd), Engine.withCtx_some _ hr]
  cases h : r.st with
  | empty => exact absurd h hs
  | ready => rfl
  | final => rfl

/-- Writing back the context that stands there, and the datapath as it is, changes nothing. -/
theorem Engine.putWork_self (hr : e.ctx[c.toNat]? = some r) : e.putWork c ⟨r, e.dp⟩ = e := by
  rw [Engine.putWork, set_getElem?_self hr]

/-- FINAL of a FINAL context writes back the context and the datapath it finds (42_streaming.md R95). -/
theorem Engine.final_of_final (hr : e.ctx[c.toNat]? = some r) (hs : r.st = .final) :
    e.final c = (e.putDigest r.dig).setStatus .ok .final := by
  have hx : finalize ⟨r, e.dp⟩ = ⟨r, e.dp⟩ := by rw [finalize, hs]
  rw [Engine.final, Engine.withCtx_some _ hr, hs]
  simp only [hx, Engine.putWork_self hr]

end Sys2Proof.Machine
end

section
/-! ### INIT of an invalid configuration, UPDATE, FINAL and CLONE -/

namespace Sys2Proof.Machine

/-- Settles O26: the EMPTY record written out. -/
theorem initOfInvalidConfigurationEmptiesTheContext : Obligations.InitOfInvalidConfigurationEmptiesTheContext := by
  unfold Obligations.InitOfInvalidConfigurationEmptiesTheContext
  intro V e b c hc hv
  rw [exec_init, Engine.init_of_invalid hc hv]
  rfl

/-- Settles O31: the error is all that UPDATE writes. -/
theorem updateOfFinalReportsState : Obligations.UpdateOfFinalReportsState := by
  unfold Obligations.UpdateOfFinalReportsState
  intro V e b len c r hr hs
  rw [exec_update, Engine.update_of_final hr hs]
  rfl

/-- Settles O32: the context that finalize leaves, its digest in DOUT and the datapath of its compression. -/
theorem finalFinalizesTheContext : Obligations.FinalFinalizesTheContext := by
  unfold Obligations.FinalFinalizesTheContext
  intro V e b c r hr hs t f1 h D
  refine ⟨(finalizeReady r).dp, ?_⟩
  rw [exec_final, Engine.final_of_ready hr hs, Engine.putWork, finalizeReady_c]
  rfl

/-- Settles O33: FINAL finds the cached digest and writes DOUT and STATUS alone. -/
theorem finalOfFinalReturnsTheCachedDigest : Obligations.FinalOfFinalReturnsTheCachedDigest := by
  unfold Obligations.FinalOfFinalReturnsTheCachedDigest
  intro V e b c r hr hs
  rw [exec_final, Engine.final_of_final hr hs]
  rfl

/-- A second FINAL finds the same context index, the same EMPTY context, or a FINAL context whose digest stands in DOUT. -/
theorem Engine.final_final {V : Variant} (c : BitVec 4) (e : Engine V) : (e.final c).final c = e.final c := by
  rcases Engine.final_cases c e with ⟨hc, h⟩ | ⟨r, hr, ⟨hs, h⟩ | ⟨hs, h⟩ | ⟨hs, h⟩⟩ <;> rw [h]
  · exact Engine.withCtx_none _ hc
  · exact Engine.final_of_empty hr hs
  · have hr' : (e.ctx.set c.toNat (finalizeReady r).c)[c.toNat]? = some (finalizeReady r).c :=
      List.getElem?_set_self (List.getElem?_eq_some_iff.mp hr).1
    exact Engine.final_of_final hr' rfl
  · exact Engine.final_of_final hr hs

/-- Settles O36: FINAL of the engine is idempotent, and it answers a next state with the bus as it was. -/
theorem finalIsIdempotent : Obligations.FinalIsIdempotent := by
  unfold Obligations.FinalIsIdempotent
  rintro c ⟨V, e, b⟩ s' h
  rw [exec_final] at h
  obtain rfl := Host.Outcome.next.inj h
  rw [exec_final, Engine.final_final]

/-- Settles O37: a source that is EMPTY and one that is not; the context written back where it stands. -/
theorem cloneCopiesTheSource : Obligations.CloneCopiesTheSource := by
  unfold Obligations.CloneCopiesTheSource
  intro V e b d s r hd hr
  refine ⟨?_, fun hds => set_getElem?_self (hds ▸ hr)⟩
  rw [exec_clone]
  split
  · next hs => rw [Engine.clone_of_empty hd hr hs]; rfl
  · next hs => rw [Engine.clone_of_ne_empty hd hr hs]; rfl

/-- Settles O38: READY, where the loop does not turn, and FINAL, where the length does not matter. -/
theorem updateOfNoBytesChangesNothing : Obligations.UpdateOfNoBytesChangesNothing := by
  unfold Obligations.UpdateOfNoBytesChangesNothing
  intro V e b c r hr hbuf
  refine ⟨fun hs => ?_, fun hs => updateOfFinalReportsState V e b 0 c r hr hs⟩
  have hdata : updateData e.stage 0 = [] := rfl
  rw [exec_update, Engine.update_of_ready hr hs, hdata, absorb_nil (x := ⟨r, e.dp⟩) hbuf, Engine.putWork_self hr]
  rfl

end Sys2Proof.Machine
end

section
/-! ### Serialization and the byte counter -/

namespace Sys2Proof.Machine

variable {V : Variant}

/-- Byte `i` of a word is its bits `[8i+7:8i]` (00_scope.md R9, 20_memory.md R33). -/
theorem ofNat_toNat_div_pow {w : Nat} (x : BitVec w) (i : Nat) : BitVec.ofNat 8 (x.toNat / 256 ^ i) = x.extractLsb' (8 * i) 8 := by
  rw [BitVec.extractLsb', Nat.shiftRight_eq_div_pow, Nat.pow_mul]

/-- Settles O35: byte `i` of piece `k`, the pieces being the words' bytes. -/
theorem serializeIsLittleEndian : Obligations.SerializeIsLittleEndian := by
  unfold Obligations.SerializeIsLittleEndian
  intro V h
  refine ⟨length_serialize h, fun k i hi => ?_⟩
  have hk : h.toList[k.val]? = some h[k] := by simp
  rw [List.getD_eq_getElem?_getD, serialize, getElem?_flatMap_const _ V.wb (fun _ => length_toLE _ _) _ _ _ hi, hk,
    Option.bind_some, getElem?_toLE _ _ _ hi, ofNat_toNat_div_pow, Option.getD_some]

/-- The counter is its two words (10_state.md R19). -/
theorem toNat_counter_words (t : BitVec (2 * V.w)) : (counterHigh t).toNat * 2 ^ V.w + (counterLow t).toNat = t.toNat := by
  have hhigh : t.toNat / 2 ^ V.w < 2 ^ V.w := by
    rw [Nat.div_lt_iff_lt_mul (by positivity), ← Nat.pow_add, ← Nat.two_mul]
    exact t.isLt
  rw [counterHigh, counterLow, BitVec.extractLsb'_toNat, BitVec.extractLsb'_toNat, Nat.shiftRight_eq_div_pow,
    Nat.mod_eq_of_lt hhigh, Nat.shiftRight_zero, Nat.div_add_mod']

/-- Settles O57: both counters as one number of `2w` bits. -/
theorem counterAdvancesWithCarry : Obligations.CounterAdvancesWithCarry := by
  unfold Obligations.CounterAdvancesWithCarry
  intro V c n c'
  refine ⟨?_, rfl, rfl, rfl, rfl, rfl, rfl, rfl, rfl⟩
  rw [toNat_counter_words, toNat_counter_words, advance_t, BitVec.toNat_add, BitVec.toNat_ofNat, Nat.add_mod_mod]

end Sys2Proof.Machine
end


section
/-! ### Register accesses -/

namespace Sys2Proof.Machine

variable {V : Variant}

/-- The fields of the STATUS word do not overlap (10_state.md R26). -/
theorem Status.fields_word (st : Status) :
    st.word.extractLsb' 0 4 = st.err.enc ∧ st.word.extractLsb' 4 2 = st.cstate.enc ∧ st.word.extractLsb' 6 2 = 0 ∧
    st.word.extractLsb' 8 8 = st.dlen ∧ st.word.extractLsb' 16 16 = 0 := by
  refine ⟨?_, ?_, ?_, ?_, ?_⟩ <;>
    (refine BitVec.eq_of_getLsbD_eq fun i hi => ?_
     simp only [Status.word, BitVec.getLsbD_extractLsb', BitVec.getLsbD_or, BitVec.getLsbD_shiftLeft, BitVec.getLsbD_setWidth]
     interval_cases i <;> simp)

/-- A word put together from four bytes has them as its bytes. -/
theorem bytes_of_eq_or {b3 b2 b1 b0 : Byte} {x : Word32}
    (h : x = (b3.setWidth 32 <<< 24) ||| (b2.setWidth 32 <<< 16) ||| (b1.setWidth 32 <<< 8) ||| b0.setWidth 32) :
    x.extractLsb' 24 8 = b3 ∧ x.extractLsb' 16 8 = b2 ∧ x.extractLsb' 8 8 = b1 ∧ x.extractLsb' 0 8 = b0 := by
  subst h
  refine ⟨?_, ?_, ?_, ?_⟩ <;>
    (refine BitVec.eq_of_getLsbD_eq fun i hi => ?_
     simp only [BitVec.getLsbD_extractLsb', BitVec.getLsbD_or, BitVec.getLsbD_shiftLeft, BitVec.getLsbD_setWidth]
     interval_cases i <;> simp)

/-- The fields of the ID word are its bytes (10_state.md R24): `NCTX` fits in one, being at most 16 (00_scope.md R6). -/
theorem Engine.fields_idWord {e : Engine V} (h : e.ctx.length ≤ 16) :
    e.idWord.extractLsb' 24 8 = 0xB2 ∧ (e.idWord.extractLsb' 16 8).toNat = e.ctx.length ∧
    (e.idWord.extractLsb' 8 8).toNat = V.rounds ∧ (e.idWord.extractLsb' 0 8).toNat = V.w := by
  have hctx : (BitVec.ofNat 8 e.ctx.length).setWidth 32 = BitVec.ofNat 32 e.ctx.length :=
    BitVec.setWidth_ofNat_of_le_of_lt (by decide) (by omega)
  have hword : e.idWord = ((0xB2 : Byte).setWidth 32 <<< 24) ||| ((BitVec.ofNat 8 e.ctx.length).setWidth 32 <<< 16) |||
      ((BitVec.ofNat 8 V.rounds).setWidth 32 <<< 8) ||| (BitVec.ofNat 8 V.w).setWidth 32 := by
    rw [hctx]
    cases V <;> rfl
  obtain ⟨hsig, hnctx, hrounds, hw⟩ := bytes_of_eq_or hword
  rw [hsig, hnctx, hrounds, hw]
  refine ⟨rfl, ?_, ?_, ?_⟩
  · rw [BitVec.toNat_ofNat, Nat.mod_eq_of_lt (by omega)]
  · cases V <;> rfl
  · cases V <;> rfl

/-- Settles O15: the four bytes of the ID word. -/
theorem rdIdReturnsTheIdentity : Obligations.RdIdReturnsTheIdentity := by
  unfold Obligations.RdIdReturnsTheIdentity
  intro V e b hctx
  obtain ⟨hsig, hnctx, hrounds, hw⟩ := e.fields_idWord hctx
  refine ⟨e.idWord, exec_readOf 0x00 .id e b, hsig, hnctx, ?_, ?_, decode_readForm_of_regAt (reg := .id) rfl rfl,
    fun v => ⟨decode_writeForm_of_regAt (reg := .id) v rfl rfl, rfl⟩⟩
  · rw [hrounds]; cases V <;> rfl
  · rw [hw]; cases V <;> rfl

/-- Settles O16: the fields of the STATUS word, and the codes of ERR and CSTATE. -/
theorem rdStatusReturnsTheFields : Obligations.RdStatusReturnsTheFields := by
  unfold Obligations.RdStatusReturnsTheFields
  intro V e b
  obtain ⟨herr, hcstate, hlow, hdlen, hhigh⟩ := e.status.fields_word
  refine ⟨e.status.word, exec_readOf 0x04 .status e b, ?_, ?_, hlow, hdlen, hhigh,
    decode_readForm_of_regAt (reg := .status) rfl rfl, fun v => ⟨decode_writeForm_of_regAt (reg := .status) v rfl rfl, rfl⟩⟩
  · rw [herr]; cases e.status.err <;> rfl
  · rw [hcstate]; cases e.status.cstate <;> rfl

/-- A write of an aligned offset other than CMD stores into the register there, if it is a staging register (20_memory.md R37). -/
theorem step_write {a : BitVec 8} (ha : aligned a = true) (hcmd : regAt a ≠ .cmd) (v : Word32) (e : Engine V)
    (rest : List HostEvent) (reads : List Word32) :
    step ⟨V, e, ⟨.access ⟨a, 4, some v⟩ :: rest, reads⟩⟩ = .next ⟨V, e.storeReg v (regAt a), ⟨rest, reads⟩⟩ := by
  rw [stepRunsTheDecodedAccess V e _ rest reads _ (decode_writeForm a v ha), decodeWrite, exec_writeOf a v hcmd]

/-- Settles O20: the window shows 0 at a reserved offset, and no staging register stands there. -/
theorem reservedOffsetsReadZeroAndIgnoreWrites : Obligations.ReservedOffsetsReadZeroAndIgnoreWrites := by
  unfold Obligations.ReservedOffsetsReadZeroAndIgnoreWrites
  intro V e a v rest reads h
  have ha : a.toNat % 4 = 0 := by
    rcases h with rfl | rfl | rfl | rfl | rfl | ⟨-, -, ha⟩
    exacts [rfl, rfl, rfl, rfl, rfl, ha]
  have hreg : regAt a = .reserved := (regAt_eq_reserved_iff a ha).2 (by tauto)
  constructor
  · rw [everyReadIsFreeOfSideEffects V e a rest reads ha, Engine.peek, hreg]
    rfl
  · rw [step_write ((aligned_iff a).2 ha) (by simp [hreg]), hreg, e.storeReg_of_not_staged v rfl]

/-- Settles O9: the write decodes to WR CMD, which runs the command of its word. -/
theorem cmdWriteRunsOneCommand : Obligations.CmdWriteRunsOneCommand := by
  unfold Obligations.CmdWriteRunsOneCommand
  intro V e w rest reads
  have hdec : decodeAccess ⟨0x08, 4, some w⟩ = .ok (.wrCmd w) := decode_writeForm_of_regAt (reg := .cmd) w rfl rfl
  refine ⟨stepRunsTheDecodedAccess V e _ rest reads _ hdec, exec_wrCmd w _, e.run (decodeCommand w), ?_⟩
  rw [exec_wrCmd, exec_command]

/-- Settles O17: each read returns what its register reads as, which for CFG is the stored word or the one bit of CFG5. -/
theorem readsReturnTheStoredWords : Obligations.ReadsReturnTheStoredWords := by
  unfold Obligations.ReadsReturnTheStoredWords
  intro V e b ret
  have hread (reg : Reg) : exec (readOf 0 reg) ⟨V, e, b⟩ = ret (e.readReg reg) := exec_readOf 0 reg e b
  have hcfg (k : Fin 5) : e.stage.cfgWord k.castSucc = e.stage.cfg[k] := by simp [Staging.cfgWord]
  have hcfg5 : ∀ x : BitVec 1, x.setWidth 32 = if x = 1 then (1 : Word32) else 0 := by decide
  refine ⟨hread .cmd, fun k => hread (.din k), fun k => ?_, ?_, fun k => hread (.key k), fun k => hread (.salt k),
    fun k => hread (.pers k), fun k => hread (.dout k), fun a => exec_readOf a .reserved e b⟩
  · rw [← hcfg k]; exact hread (.cfg k.castSucc)
  · rw [← hcfg5]; exact hread (.cfg 5)

/-- Settles O18: each meaning is that store. -/
theorem stagingWritesStore : Obligations.StagingWritesStore := by
  unfold Obligations.StagingWritesStore
  exact fun V e b v => ⟨fun _ => rfl, fun _ => rfl, rfl, fun _ => rfl, fun _ => rfl, fun _ => rfl⟩

/-- Settles O19: each meaning answers the state it is given. -/
theorem ignoredWritesChangeNothing : Obligations.IgnoredWritesChangeNothing := by
  unfold Obligations.IgnoredWritesChangeNothing
  exact fun s v => ⟨rfl, rfl, fun _ => rfl, fun _ => rfl⟩

/-- Settles O34: byte `4k + i` of the DOUT bank is byte `i` of its word `k`. -/
theorem doutHoldsTheDigestThenZeros : Obligations.DoutHoldsTheDigestThenZeros := by
  unfold Obligations.DoutHoldsTheDigestThenZeros
  intro d k i hd hi
  rw [← doutByte_doutWords hd, doutByte, getD_bankBytes _ _ _ k.isLt hi]
  rfl

end Sys2Proof.Machine
end

section
/-! ### NOP, ILLEGAL, INIT of a valid configuration and UPDATE of a READY context -/

namespace Sys2Proof.Machine

variable {V : Variant}

/-- Settles O23: the two commands on the engine write ERR alone. -/
theorem nopAndIllegalWriteErrAlone : Obligations.NopAndIllegalWriteErrAlone := by
  unfold Obligations.NopAndIllegalWriteErrAlone
  exact fun V e b f => ⟨exec_command .nop e b, exec_command (.illegal f) e b⟩

/-- The initial chaining value, word by word (40_parameter_block.md R58, R59). -/
theorem initialH_eq (C : HashConfig) :
    initialH V C = Vector.ofFn fun i => (iv V)[i] ^^^ wordAt V (paramBlock V C) i.val := by simp [initialH, paramWords]

/-- INIT of a valid configuration leaves the key block in the buffer and the datapath as it was (43_host_commands.md R103,
42_streaming.md R87). -/
theorem Engine.init_of_valid {e : Engine V} {c : BitVec 4} (hc : c.toNat < e.ctx.length)
    (hv : (snapshot e.stage).valid V = true) :
    e.init c =
      (e.putCtx c { freshCtx V (snapshot e.stage) with buf := keyBlock V (snapshot e.stage) }).setStatus .ok .ready := by
  obtain ⟨-, hkk, -⟩ := (valid_iff _).1 hv
  rw [Engine.init, Engine.withCtx_some _ (List.getElem?_eq_getElem hc)]
  simp only [hv, if_true, construct_eq _ _ (length_snapshot_kb _) hkk]
  rfl

/-- Settles O25: the constructed context written out. -/
theorem initConstructsTheHasher : Obligations.InitConstructsTheHasher := by
  unfold Obligations.InitConstructsTheHasher
  intro V e b c hc hv P kk
  rw [exec_init, Engine.init_of_valid hc hv, freshCtx, initialH_eq]
  rfl

/-- The data operand is the first bytes of the two DIN registers (30_encoding.md R43). -/
theorem updateData_eq (g : Staging) (len : BitVec 4) :
    updateData g len = (toLE 4 g.din[0].toNat ++ toLE 4 g.din[1].toNat).take len.toNat := by
  have hdin : g.din.toList = [g.din[0], g.din[1]] := by
    refine List.ext_getElem (by simp) fun i hi _ => ?_
    rw [Vector.length_toList] at hi
    interval_cases i <;> rfl
  simp [updateData, dinBytes, bankBytes, hdin, regBytes]

theorem length_updateData_le (g : Staging) (len : BitVec 4) : (updateData g len).length ≤ 8 := by
  simp [updateData, dinBytes]

theorem eight_le_bb : 8 ≤ V.bb := by cases V <;> decide

/-- The context that a turn of the loop of absorb leaves (42_streaming.md R89). -/
theorem compressOldest_c (x : Work V) :
    (compressOldest x).c = { x.c with
      t := x.c.t + BitVec.ofNat (2 * V.w) V.bb
      h := compress x.c.h (x.c.buf.take V.bb) (x.c.t + BitVec.ofNat (2 * V.w) V.bb) 0 0
      buf := x.c.buf.drop V.bb } := by
  rw [← compressOldest_h]
  rfl

/-- Settles O29: the loop of absorb does not turn, or it turns once, since at most eight bytes come to at most a block. -/
theorem updateAbsorbsItsBytes : Obligations.UpdateAbsorbsItsBytes := by
  unfold Obligations.UpdateAbsorbsItsBytes
  intro V e b len c r _ hr hs hbuf buf
  have hupdate : exec (.update len c) ⟨V, e, b⟩ =
      .next ⟨V, (e.putWork c (absorb ⟨r, e.dp⟩ (updateData e.stage len))).setStatus .ok .ready, b⟩ := by
    rw [exec_update, Engine.update_of_ready hr hs]
  have happend : r.buf ++ updateData e.stage len = buf := by rw [updateData_eq]
  rw [hupdate]
  refine ⟨fun hle => ?_, fun hgt => ⟨(compressOldest ⟨{ r with buf := buf }, e.dp⟩).dp, ?_⟩⟩
  · rw [absorb_of_le _ _ (happend ▸ hle)]
    simp only [happend]
    rfl
  · have hlen : buf.length ≤ 2 * V.bb := by
      have hdata := length_updateData_le e.stage len
      have hbb := eight_le_bb (V := V)
      rw [← happend, List.length_append]
      omega
    rw [absorb_of_gt _ _ (happend ▸ hgt) (happend ▸ hlen)]
    simp only [happend, Engine.putWork, compressOldest_c]
    rfl

end Sys2Proof.Machine
end

section
/-! ### The frame of the commands -/

namespace Sys2Proof

/-- The context a command may write: the one its CTX names (43_host_commands.md R103 to R106). -/
def Command.dest : Command → Option (BitVec 4)
  | .nop => none
  | .init c => some c
  | .update _ c => some c
  | .final c => some c
  | .clone d _ => some d
  | .illegal _ => none

end Sys2Proof

namespace Sys2Proof.Machine

variable {V : Variant} {e : Engine V} {k : Command}

/-- What a command that goes from `e` to `e'` keeps: the staging registers, every context but its destination, and DOUT and DLEN unless it
is a FINAL (43_host_commands.md R121, R122). -/
structure Engine.Frame (e : Engine V) (k : Command) (e' : Engine V) : Prop where
  stage : e'.stage = e.stage
  ctx : e'.ctx = e.ctx ∨ ∃ c r, k.dest = some c ∧ e'.ctx = e.ctx.set c.toNat r
  digest : (∀ c, k ≠ .final c) → e'.dout = e.dout ∧ e'.status.dlen = e.status.dlen

theorem Engine.Frame.putStatus {st : Status} (h : st.dlen = e.status.dlen) : e.Frame k { e with status := st } :=
  ⟨rfl, .inl rfl, fun _ => ⟨rfl, h⟩⟩

theorem Engine.Frame.putWork {c : BitVec 4} (hc : k.dest = some c) (x : Work V) (err : ErrCode) (cs : Lifecycle) :
    e.Frame k ((e.putWork c x).setStatus err cs) := ⟨rfl, .inr ⟨c, x.c, hc, rfl⟩, fun _ => ⟨rfl, rfl⟩⟩

/-- Every outcome of a command is a write of ERR and CSTATE, or of its destination as well, or that of a FINAL. -/
theorem Engine.frame_run (e : Engine V) (k : Command) : e.Frame k (e.run k) := by
  cases k with
  | nop => exact .putStatus rfl
  | illegal f => exact .putStatus rfl
  | init c =>
    rcases Engine.init_cases c e with ⟨-, h⟩ | ⟨-, -, h⟩ | ⟨-, -, h⟩ <;> rw [Engine.run, h]
    · exact .putStatus rfl
    · exact .putWork rfl _ _ _
    · exact .putWork rfl ⟨Ctx.emptyRecord V, e.dp⟩ _ _
  | update len c =>
    rcases Engine.update_cases len c e with ⟨-, h⟩ | ⟨r, -, ⟨-, h⟩ | ⟨-, h⟩ | ⟨-, h⟩⟩ <;> rw [Engine.run, h]
    · exact .putStatus rfl
    · exact .putStatus rfl
    · exact .putStatus rfl
    · exact .putWork rfl _ _ _
  | final c =>
    rcases Engine.final_cases c e with ⟨-, h⟩ | ⟨r, -, ⟨-, h⟩ | ⟨-, h⟩ | ⟨-, h⟩⟩ <;> rw [Engine.run, h]
    · exact .putStatus rfl
    · exact .putStatus rfl
    · exact ⟨rfl, .inr ⟨c, _, rfl, rfl⟩, fun hk => absurd rfl (hk c)⟩
    · exact ⟨rfl, .inl rfl, fun hk => absurd rfl (hk c)⟩
  | clone d s =>
    rcases Engine.clone_cases d s e with ⟨-, h⟩ | ⟨-, r, -, ⟨-, h⟩ | ⟨-, h⟩⟩ <;> rw [Engine.run, h]
    · exact .putStatus rfl
    · exact .putStatus rfl
    · exact .putWork rfl ⟨r, e.dp⟩ _ _

/-- Only UPDATE and FINAL compress (42_streaming.md R100). -/
theorem Engine.compressions_eq_zero (e : Engine V) (hfinal : ∀ c, k ≠ .final c) (hupdate : ∀ len c, k ≠ .update len c) :
    e.compressions k = 0 := by
  cases k with
  | update len c => exact absurd rfl (hupdate len c)
  | final c => exact absurd rfl (hfinal c)
  | _ => rfl

/-- Settles O39: the frame of the command on the engine, and the datapath that a command without a compression keeps. -/
theorem commandFrame : Obligations.CommandFrame := by
  unfold Obligations.CommandFrame
  intro k V e e' b b' hx
  obtain ⟨rfl, rfl⟩ := exec_command_inv hx
  obtain ⟨hstage, hctx, hdigest⟩ := e.frame_run k
  refine ⟨rfl, hstage, ?_, fun d hd => ?_, hdigest, fun hfinal hupdate =>
    run_dp_of_compressions_eq_zero e k (e.compressions_eq_zero hfinal hupdate)⟩
  · rcases hctx with h | ⟨c, r, -, h⟩ <;> rw [h]
    exact List.length_set
  · rcases hctx with h | ⟨c, r, hk, h⟩ <;> rw [h]
    have hne : d ≠ c.toNat := by
      cases k with
      | nop => cases hk
      | illegal f => cases hk
      | _ => obtain rfl := Option.some.inj hk; exact hd
    exact List.getElem?_set_ne hne.symm

end Sys2Proof.Machine
end

section
/-! ### Commands that report an error -/

namespace Sys2Proof.Machine

variable {V : Variant}

theorem Engine.update_of_empty {e : Engine V} {c len : BitVec 4} {r : Ctx V} (hr : e.ctx[c.toNat]? = some r)
    (hs : r.st = .empty) : e.update len c = e.raise .noctx .empty := by
  rw [Engine.update, Engine.withCtx_some _ hr, hs]

/-- Settles O30: each of the three commands finds the context EMPTY and raises NOCTX. -/
theorem emptyContextReportsNoctx : Obligations.EmptyContextReportsNoctx := by
  unfold Obligations.EmptyContextReportsNoctx
  intro V e b len c d r hr hs hd t
  rw [exec_update, exec_final, exec_clone, Engine.update_of_empty hr hs, Engine.final_of_empty hr hs,
    Engine.clone_of_empty hd hr hs]
  exact ⟨rfl, rfl, rfl⟩

/-- A command reports OK, or it writes ERR and CSTATE at most, or it is an INIT that empties its context (60_exceptions.md R132,
42_streaming.md R86). -/
theorem Engine.run_error_cases (e : Engine V) (k : Command) :
    (e.run k).status.err = .ok ∨ ((e.run k).status.dlen = e.status.dlen ∧ e.run k = { e with status := (e.run k).status }) ∨
    ∃ c, k = .init c ∧ e.run k = (e.putCtx c (Ctx.emptyRecord V)).raise .config .empty := by
  cases k with
  | nop => exact .inl rfl
  | illegal f => exact .inr (.inl ⟨rfl, rfl⟩)
  | init c =>
    rcases Engine.init_cases c e with ⟨-, h⟩ | ⟨-, -, h⟩ | ⟨-, -, h⟩ <;> rw [Engine.run, h]
    · exact .inr (.inl ⟨rfl, rfl⟩)
    · exact .inl rfl
    · exact .inr (.inr ⟨c, rfl, rfl⟩)
  | update len c =>
    rcases Engine.update_cases len c e with ⟨-, h⟩ | ⟨r, -, ⟨-, h⟩ | ⟨-, h⟩ | ⟨-, h⟩⟩ <;> rw [Engine.run, h]
    · exact .inr (.inl ⟨rfl, rfl⟩)
    · exact .inr (.inl ⟨rfl, rfl⟩)
    · exact .inr (.inl ⟨rfl, rfl⟩)
    · exact .inl rfl
  | final c =>
    rcases Engine.final_cases c e with ⟨-, h⟩ | ⟨r, -, ⟨-, h⟩ | ⟨-, h⟩ | ⟨-, h⟩⟩ <;> rw [Engine.run, h]
    · exact .inr (.inl ⟨rfl, rfl⟩)
    · exact .inr (.inl ⟨rfl, rfl⟩)
    · exact .inl rfl
    · exact .inl rfl
  | clone d s =>
    rcases Engine.clone_cases d s e with ⟨-, h⟩ | ⟨-, r, -, ⟨-, h⟩ | ⟨-, h⟩⟩ <;> rw [Engine.run, h]
    · exact .inr (.inl ⟨rfl, rfl⟩)
    · exact .inr (.inl ⟨rfl, rfl⟩)
    · exact .inl rfl

/-- Settles O40: the write runs one command, whose outcome is an error that writes STATUS alone or that of an invalid INIT. -/
theorem errorsArePrecise : Obligations.ErrorsArePrecise := by
  unfold Obligations.ErrorsArePrecise
  intro w V e e' b b' hx herr
  rw [exec_wrCmd] at hx
  obtain ⟨rfl, rfl⟩ := exec_command_inv hx
  refine ⟨rfl, ?_⟩
  rcases e.run_error_cases (decodeCommand w) with hok | ⟨hdlen, h⟩ | ⟨c, hk, h⟩
  · exact absurd hok herr
  · exact ⟨hdlen, .inl h⟩
  · rw [h]
    exact ⟨rfl, .inr ⟨c, hk, rfl, rfl⟩⟩

/-- A command that looks up a context reports ILLEGAL when there is none, before every other code (30_encoding.md R46). -/
theorem Engine.err_withCtx {e : Engine V} {c : BitVec 4} {f : Ctx V → Engine V} {codes : List ErrCode}
    (hf : ∀ r, (f r).status.err ∈ codes) :
    if e.ctx.length ≤ c.toNat then (e.withCtx c f).status.err = .illegal else (e.withCtx c f).status.err ∈ codes := by
  split
  · next hc => rw [Engine.withCtx_none f hc]; rfl
  · next hc => rw [Engine.withCtx_some f (List.getElem?_eq_getElem (Nat.not_le.1 hc))]; exact hf _

/-- Settles O41: the look-up of the context, then the codes by its lifecycle state or, for INIT, by the configuration. -/
theorem errorCodesOfEachCommand : Obligations.ErrorCodesOfEachCommand := by
  unfold Obligations.ErrorCodesOfEachCommand
  intro k V e e' b b' hx
  obtain ⟨rfl, rfl⟩ := exec_command_inv hx
  cases k with
  | nop => rfl
  | illegal f => rfl
  | init c => exact Engine.err_withCtx fun _ => by cases h : (snapshot e.stage).valid V <;> simp [h]
  | update len c => exact Engine.err_withCtx fun r => by cases r.st <;> simp
  | final c => exact Engine.err_withCtx fun r => by cases r.st <;> simp
  | clone d s =>
    rcases Engine.clone_cases d s e with ⟨hc, h⟩ | ⟨hd, r, hr, h⟩
    · simp [Engine.run, h, hc]
    · have hs : s.toNat < e.ctx.length := (List.getElem?_eq_some_iff.mp hr).1
      rcases h with ⟨-, h⟩ | ⟨-, h⟩ <;> simp [Engine.run, h, hd, hs]

end Sys2Proof.Machine
end

section
/-! ### Completion and refusal -/

namespace Sys2Proof.Machine

variable {V : Variant}

/-- Settles O14: a command keeps the contexts' number, a store writes a staging register alone, a read returns one value. -/
theorem everyInstructionCompletes : Obligations.EveryInstructionCompletes := by
  unfold Obligations.EveryInstructionCompletes
  intro i V e b
  rcases exec_kinds i with ⟨k, h⟩ | ⟨v, reg, h⟩ | ⟨reg, h⟩
  · obtain ⟨-, -, hlen, -⟩ := commandFrame k V e _ b b (exec_command k e b)
    exact ⟨e.run k, [], by rw [h, List.append_nil], hlen, Nat.zero_le 1⟩
  · exact ⟨e.storeReg v reg, [], by rw [h, List.append_nil], rfl, Nat.zero_le 1⟩
  · exact ⟨e, [e.readReg reg], h V e b, rfl, Nat.le_refl 1⟩

theorem exec_ne_refused (i : Instr) (s : State) (r : Refusal) : exec i s ≠ .refused r := by
  obtain ⟨V, e, b⟩ := s
  obtain ⟨e', out, h, -⟩ := everyInstructionCompletes i V e b
  rw [h]
  nofun

/-- An access is rejected exactly when it is not 32-bit or not word-aligned (20_memory.md R34). -/
theorem decodeAccess_eq_error_iff (a : Access) (d : DecodeReject) : decodeAccess a = .error d ↔
    (a.width ≠ 4 ∨ a.addr.toNat % 4 ≠ 0) ∧ .hostProtocol a.addr a.width = d := by
  simp only [decodeAccess, aligned_iff]
  split
  · next h => cases a.wdata <;> simp [h]
  · next h => simp [← not_and_or, h]

/-- A step is refused when the decoder rejects the access that is next, and in no other way (60_exceptions.md R144). -/
theorem step_eq_refused_iff (s : State) (r : Refusal) : step s = .refused r ↔
    ∃ a rest d, s.bus.pending = .access a :: rest ∧ decodeAccess a = .error d ∧ refusalOf d = r := by
  obtain ⟨V, e, pending, reads⟩ := s
  rcases pending with - | ⟨a | - | w, rest⟩
  · simp [step, fetch]
  · cases h : decodeAccess a with
    | ok i => simp [step, fetch, h, exec_ne_refused]
    | error d => simp [step, fetch, h]
  · simp [step, fetch]
  · simp [step, fetch]

/-- Settles O10: the accesses that the decoder rejects. -/
theorem stepRefusesExactlyProtocolViolations : Obligations.StepRefusesExactlyProtocolViolations := by
  unfold Obligations.StepRefusesExactlyProtocolViolations
  intro s r
  simp only [step_eq_refused_iff, decodeAccess_eq_error_iff]
  constructor
  · rintro ⟨a, rest, d, hp, ⟨hviol, rfl⟩, rfl⟩
    exact ⟨a, rest, hp, hviol, rfl⟩
  · rintro ⟨a, rest, hp, hviol, rfl⟩
    exact ⟨a, rest, _, hp, ⟨hviol, rfl⟩, rfl⟩

end Sys2Proof.Machine
end

section
/-! ### Idle steps, resets and the host's duty -/

namespace Sys2Proof.Machine

variable {V : Variant}

/-- Settles O11: nothing is fetched. -/
theorem idleWithoutAccess : Obligations.IdleWithoutAccess := by
  unfold Obligations.IdleWithoutAccess
  exact fun V e reads => rfl

/-- Settles O12: both reset events are fetched as the machine that is already reset. -/
theorem resetTakesTheResetState : Obligations.ResetTakesTheResetState := by
  unfold Obligations.ResetTakesTheResetState
  exact fun V e rest reads w => ⟨rfl, rfl⟩

/-- Settles O45, for `State.reset` with the two contexts that Config names. -/
theorem resetMeetsTheInvariant : Obligations.ResetMeetsTheInvariant := by
  unfold Obligations.ResetMeetsTheInvariant
  exact ⟨fun V n h1 h16 => Engine.inv_reset h1 h16, Engine.inv_reset (by decide) (by decide)⟩

/-- The decoder rejects no 32-bit aligned access (20_memory.md R34). -/
theorem exists_decodeAccess_of_conforming {a : Access} (h : Access.conforming a = true) : ∃ i, decodeAccess a = .ok i := by
  obtain ⟨hw, ha⟩ : a.width = 4 ∧ a.addr.toNat % 4 = 0 := by simpa [Access.conforming, aligned_iff] using h
  cases hd : decodeAccess a with
  | ok i => exact ⟨i, rfl⟩
  | error d =>
    obtain ⟨hviol, -⟩ := (decodeAccess_eq_error_iff a d).1 hd
    omega

/-- Settles O46: the oldest event is taken, an access that decodes completes, and no instruction touches the events after it. -/
theorem conformingHostIsNeverRefused : Obligations.ConformingHostIsNeverRefused := by
  unfold Obligations.ConformingHostIsNeverRefused
  rintro ⟨V, e, pending, reads⟩ h
  cases pending with
  | nil => exact ⟨_, rfl, rfl⟩
  | cons ev rest =>
    obtain ⟨hev, hrest⟩ : ev.conforming = true ∧ rest.all HostEvent.conforming = true := by
      simpa only [State.conforming, List.all_cons, Bool.and_eq_true] using h
    cases ev with
    | reset => exact ⟨_, rfl, hrest⟩
    | resetInCmd w => exact ⟨_, rfl, hrest⟩
    | access a =>
      obtain ⟨i, hi⟩ := exists_decodeAccess_of_conforming hev
      obtain ⟨e', out, hx, -⟩ := everyInstructionCompletes i V e ⟨rest, reads⟩
      exact ⟨_, (stepRunsTheDecodedAccess V e a rest reads i hi).trans hx, hrest⟩

end Sys2Proof.Machine
end

section
/-! ### What the host reads after reset -/

namespace Sys2Proof

theorem regAt_eq_id_iff : ∀ a : BitVec 8, a.toNat % 4 = 0 → (regAt a = .id ↔ a.toNat = 0x00) := by decide

theorem regAt_eq_cfg0_iff : ∀ a : BitVec 8, a.toNat % 4 = 0 → (regAt a = .cfg 0 ↔ a.toNat = 0x20) := by decide

end Sys2Proof

namespace Sys2Proof.Machine

variable {V : Variant}

/-- ID of a machine with a legal number of contexts: the signature, `NCTX`, `R` and `w` (10_state.md R24). -/
theorem toNat_readReg_id_reset {n : Nat} (h : n ≤ 16) :
    ((Engine.reset V n).readReg .id).toNat = 0xB2000000 + n * 2 ^ 16 + V.rounds * 2 ^ 8 + V.w := by
  have hword : ∀ n ≤ 16, ((0xB2#32 <<< 24) ||| (BitVec.ofNat 32 n <<< 16) ||| (BitVec.ofNat 32 V.rounds <<< 8) |||
      BitVec.ofNat 32 V.w).toNat = 0xB2000000 + n * 2 ^ 16 + V.rounds * 2 ^ 8 + V.w := by cases V <;> decide
  have hnctx : (Engine.reset V n).nctx = n := List.length_replicate
  rw [Engine.readReg, Engine.idWord, hnctx, hword n h]

/-- Every register but ID and CFG0 reads as 0 after reset (70_reset_and_hazards.md R147). -/
theorem Engine.readReg_reset_eq_zero (n : Nat) {reg : Reg} (hid : reg ≠ .id) (hcfg : reg ≠ .cfg 0) :
    (Engine.reset V n).readReg reg = 0 := by
  cases reg with
  | id => exact absurd rfl hid
  | status =>
    have h : Status.reset.word = 0 := by decide
    exact h
  | cmd => rfl
  | cfg k =>
    have h : ∀ k : Fin 6, k ≠ 0 → (Staging.reset V).cfgWord k = 0 := by cases V <;> decide
    exact h k fun hk => hcfg (congrArg Reg.cfg hk)
  | din k => exact Vector.getElem_replicate k.isLt
  | key k => exact Vector.getElem_replicate k.isLt
  | salt k => exact Vector.getElem_replicate k.isLt
  | pers k => exact Vector.getElem_replicate k.isLt
  | dout k => exact Vector.getElem_replicate k.isLt
  | reserved => rfl

/-- Settles O13: ID and CFG0 stand at one offset each, and every other register reads as 0. -/
theorem resetValues : Obligations.ResetValues := by
  unfold Obligations.ResetValues
  intro V n _ h16
  refine ⟨rfl, fun a ha => ?_⟩
  rw [Engine.peek]
  by_cases hid : a.toNat = 0x00
  · rw [(regAt_eq_id_iff a ha).2 hid, toNat_readReg_id_reset h16, hid]
    cases V <;> simp only [Variant.rounds, Variant.w] <;> omega
  by_cases hcfg : a.toNat = 0x20
  · rw [(regAt_eq_cfg0_iff a ha).2 hcfg, hcfg]
    cases V <;> rfl
  rw [Engine.readReg_reset_eq_zero n (mt (regAt_eq_id_iff a ha).1 hid) (mt (regAt_eq_cfg0_iff a ha).1 hcfg)]
  split
  exacts [absurd ‹_› hid, absurd ‹_› hid, absurd ‹_› hcfg, absurd ‹_› hcfg, rfl]

end Sys2Proof.Machine
end

section
/-! ### Isolation and interleaving of contexts -/

namespace Sys2Proof.Machine

variable {V : Variant}

/-- After a write of one place, two lists that agree at a place still do. -/
theorem getElem?_set_congr {α : Type} {l l' : List α} {i : Nat} (h : l[i]? = l'[i]?) (j : Nat) (a : α) :
    (l.set j a)[i]? = (l'.set j a)[i]? := by
  by_cases hij : j = i
  · subst hij
    rw [List.getElem?_set_self', List.getElem?_set_self', h]
  · rw [List.getElem?_set_ne hij, List.getElem?_set_ne hij, h]

/-- What finalize makes of a context does not depend on the datapath. -/
theorem finalize_c_congr (c : Ctx V) (dp dp' : Datapath V) : (finalize ⟨c, dp⟩).c = (finalize ⟨c, dp'⟩).c := by
  unfold finalize
  cases c.st <;> rfl

/-- Two engines agree on the context at place `i` and on ERR. -/
def Engine.AgreeAt (i : Nat) (e1 e2 : Engine V) : Prop := e1.ctx[i]? = e2.ctx[i]? ∧ e1.status.err = e2.status.err

variable {i : Nat} {e1 e2 : Engine V}

theorem Engine.AgreeAt.of_setStatus (h : e1.ctx[i]? = e2.ctx[i]?) (err : ErrCode) (cs : Lifecycle) :
    Engine.AgreeAt i (e1.setStatus err cs) (e2.setStatus err cs) := ⟨h, rfl⟩

theorem Engine.AgreeAt.of_putWork (h : e1.ctx[i]? = e2.ctx[i]?) (c : BitVec 4) {x y : Work V} (hxy : x.c = y.c)
    (err : ErrCode) (cs : Lifecycle) :
    Engine.AgreeAt i ((e1.putWork c x).setStatus err cs) ((e2.putWork c y).setStatus err cs) := by
  refine .of_setStatus ?_ err cs
  rw [Engine.putWork_ctx, Engine.putWork_ctx, hxy]
  exact getElem?_set_congr h _ _

theorem Engine.AgreeAt.withCtx (h : e1.ctx[i]? = e2.ctx[i]?) {c : BitVec 4} (hc : e1.ctx[c.toNat]? = e2.ctx[c.toNat]?)
    {f1 f2 : Ctx V → Engine V} (hf : ∀ r, Engine.AgreeAt i (f1 r) (f2 r)) :
    Engine.AgreeAt i (e1.withCtx c f1) (e2.withCtx c f2) := by
  unfold Engine.withCtx
  rw [hc]
  cases e2.ctx[c.toNat]? with
  | none => exact ⟨h, rfl⟩
  | some r => exact hf r

/-- A command reads the staging registers and the contexts it names, and nothing else that shows in a context or in ERR
(70_reset_and_hazards.md R160). -/
theorem Engine.AgreeAt.run (k : Command) (hstage : e1.stage = e2.stage)
    (hk : ∀ c, k.Names c → e1.ctx[c.toNat]? = e2.ctx[c.toNat]?) (h : e1.ctx[i]? = e2.ctx[i]?) :
    Engine.AgreeAt i (e1.run k) (e2.run k) := by
  cases k with
  | nop => exact ⟨h, rfl⟩
  | illegal f => exact ⟨h, rfl⟩
  | init c =>
    refine .withCtx h (hk c rfl) fun _ => ?_
    dsimp only
    rw [hstage]
    split
    · exact .of_putWork h c (construct_c_congr _ _ _) _ _
    · exact .of_putWork h c (x := ⟨_, e1.dp⟩) (y := ⟨_, e2.dp⟩) rfl _ _
  | update len c =>
    refine .withCtx h (hk c rfl) fun r => ?_
    rw [hstage]
    cases r.st with
    | empty => exact .of_setStatus h _ _
    | final => exact .of_setStatus h _ _
    | ready => exact .of_putWork h c (absorb_c_congr _ _ _ _) _ _
  | final c =>
    have hx (r : Ctx V) := Engine.AgreeAt.of_putWork h c (finalize_c_congr r e1.dp e2.dp) .ok .final
    refine .withCtx h (hk c rfl) fun r => ?_
    cases r.st with
    | empty => exact .of_setStatus h _ _
    | ready => exact hx r
    | final => exact hx r
  | clone d s =>
    have hx (r : Ctx V) := Engine.AgreeAt.of_putWork h d (x := ⟨r, e1.dp⟩) (y := ⟨r, e2.dp⟩) rfl .ok
    refine .withCtx h (hk d (.inl rfl)) fun _ => .withCtx h (hk s (.inr rfl)) fun r => ?_
    cases r.st with
    | empty => exact .of_setStatus h _ _
    | ready => exact hx r .ready
    | final => exact hx r .final

/-- Settles O49: the two engines agree on every context the command names. -/
theorem contextsNeverInterfere : Obligations.ContextsNeverInterfere := by
  unfold Obligations.ContextsNeverInterfere
  intro k c V e1 e2 e1' e2' b1 b2 b1' b2' hstage _ hc hk hx1 hx2
  obtain ⟨rfl, -⟩ := exec_command_inv hx1
  obtain ⟨rfl, -⟩ := exec_command_inv hx2
  refine Engine.AgreeAt.run k hstage (fun d hd => ?_) hc
  cases k with
  | nop => cases hd
  | illegal f => cases hd
  | init c' => obtain rfl : c = d := hk.symm.trans hd; exact hc
  | update len c' => obtain rfl : c = d := hk.symm.trans hd; exact hc
  | final c' => obtain rfl : c = d := hk.symm.trans hd; exact hc
  | clone c' s =>
    obtain ⟨rfl, hs⟩ := hk
    obtain rfl | rfl : c' = d ∨ s = d := hd
    · exact hc
    · exact hs

/-- A command keeps every context but its destination (43_host_commands.md R122). -/
theorem Engine.getElem?_run_of_ne {k : Command} {c : BitVec 4} (hk : k.dest = some c) (hi : i ≠ c.toNat) (e : Engine V) :
    (e.run k).ctx[i]? = e.ctx[i]? := by
  rcases (e.frame_run k).ctx with h | ⟨d, r, hd, h⟩ <;> rw [h]
  obtain rfl := Option.some.inj (hk.symm.trans hd)
  exact List.getElem?_set_ne hi.symm

/-- Beside the destination of `k'`, which `k` does not name, the two commands leave the same context in either order. -/
theorem Engine.getElem?_run_run_comm {k k' : Command} {c' : BitVec 4} (hk' : k'.dest = some c') (hk : ¬ k.Names c')
    (hi : i ≠ c'.toNat) (e : Engine V) : ((e.run k).run k').ctx[i]? = ((e.run k').run k).ctx[i]? := by
  have hkeep {j : Nat} (hj : j ≠ c'.toNat) : e.ctx[j]? = (e.run k').ctx[j]? := (Engine.getElem?_run_of_ne hk' hj e).symm
  have hnamed (d : BitVec 4) (hd : k.Names d) : e.ctx[d.toNat]? = (e.run k').ctx[d.toNat]? :=
    hkeep fun hn => hk (BitVec.eq_of_toNat_eq hn ▸ hd)
  rw [Engine.getElem?_run_of_ne hk' hi]
  exact (Engine.AgreeAt.run k (e.frame_run k').stage.symm hnamed (hkeep hi)).1

/-- The commands of 70_reset_and_hazards.md R160: each writes its own context and names no other but the source of a CLONE. -/
theorem dest_and_not_names {k : Command} {c c' : BitVec 4} (hne : c ≠ c')
    (h : k = .init c ∨ (∃ len, k = .update len c) ∨ k = .final c ∨ (∃ s, s ≠ c' ∧ k = .clone c s)) :
    k.dest = some c ∧ ¬ k.Names c' := by
  rcases h with rfl | ⟨len, rfl⟩ | rfl | ⟨s, hs, rfl⟩
  · exact ⟨rfl, hne⟩
  · exact ⟨rfl, hne⟩
  · exact ⟨rfl, hne⟩
  · exact ⟨rfl, not_or.2 ⟨hne, hs⟩⟩

/-- Settles O50: neither command names the destination of the other, and every context is beside one of the two. -/
theorem interleavingOfContextsIsFree : Obligations.InterleavingOfContextsIsFree := by
  unfold Obligations.InterleavingOfContextsIsFree
  intro k1 k2 c1 c2 V e e1 e2 e12 e21 b b1 b2 b12 b21 hne h1 h2 hx1 hx12 hx2 hx21
  obtain ⟨rfl, -⟩ := exec_command_inv hx1
  obtain ⟨rfl, -⟩ := exec_command_inv hx12
  obtain ⟨rfl, -⟩ := exec_command_inv hx2
  obtain ⟨rfl, -⟩ := exec_command_inv hx21
  obtain ⟨hdest1, hnames1⟩ := dest_and_not_names hne h1
  obtain ⟨hdest2, hnames2⟩ := dest_and_not_names hne.symm h2
  have hstage (k k' : Command) : ((e.run k).run k').stage = e.stage :=
    ((e.run k).frame_run k').stage.trans (e.frame_run k).stage
  refine ⟨List.ext_getElem? fun i => ?_, (hstage k1 k2).trans (hstage k2 k1).symm⟩
  by_cases hi : i = c2.toNat
  · have hi1 : i ≠ c1.toNat := fun h => hne (BitVec.eq_of_toNat_eq (h.symm.trans hi))
    exact (Engine.getElem?_run_run_comm hdest1 hnames2 hi1 e).symm
  · exact Engine.getElem?_run_run_comm hdest2 hnames1 hi e

end Sys2Proof.Machine
end
